-- ==== Sys2Proof/Word.lean ====
section
/-! DEFINITION. The words, bytes, register indices and variant names every other file uses
(00_scope.md R5, R9; 10_state.md R13, R21). -/

namespace Sys2Proof

/-- A register value or an instruction word: an unsigned 32-bit integer (R5, R9). -/
abbrev Word := BitVec 32

/-- One byte of memory (R26). -/
abbrev Byte := BitVec 8

/-- The index of a general register, x0 to x31 (R13). -/
abbrev RegIdx := Fin 32

/-- The closed set of six variants the current-opcode register can hold (R21, R55). `idle` has no
encoding and is only the reset value (R85); `brk` is BREAK (the word `break` is Lean's). -/
inductive Opcode where
  | idle
  | add
  | sub
  | load
  | store
  | brk
  deriving DecidableEq, Repr

end Sys2Proof
end

