-- ==== Sys2Proof/Config.lean ====
section
/-! DEFINITION. What one implementation of CORE fixes: the three parameters of 00_scope.md R6. The
model has no free value: the spec leaves no result of an instruction open. -/

namespace Sys2Proof

/-- IMM_EXT: how the 10-bit immediate becomes the offset of LOAD and STORE (R6, R58, D2). -/
inductive ImmExt where
  /-- zero-extension, the spec's default -/
  | zero
  /-- sign-extension, the alternative the spec keeps open -/
  | sign
  deriving DecidableEq, Repr

/-- RD_FIELD: the bit range of the rd field, in the source's MSB-first numbering (R6, R50, D17). -/
inductive RdField where
  /-- [8,11), three bits: the spec's resolution of 90_conflicts.md C2 -/
  | bits8to11
  /-- [7,12), five bits: the alternative the spec keeps open -/
  | bits7to12
  deriving DecidableEq, Repr

/-- The largest memory the spec admits, 2^30 bytes (R6, D1). -/
abbrev maxMemSize : Nat := 2 ^ 30

/-- One implementation of CORE. The type of `memSize` admits exactly 0 ≤ MEM_SIZE ≤ 2^30: a larger
memory is no configuration of this model, as D1 and I8 ask. -/
structure Config where
  memSize : Fin (maxMemSize + 1)
  immExt  : ImmExt
  rdField : RdField
  deriving DecidableEq, Repr

/-- The hardware the spec describes: the defaults of R6. -/
def Config.reference : Config :=
  { memSize := ⟨512, by decide⟩, immExt := .zero, rdField := .bits8to11 }

/-- How many destination registers the rd field can name: x0 to x7, or x0 to x31 (R5, R50). -/
def RdField.count : RdField → Nat
  | .bits8to11 => 8
  | .bits7to12 => 32

end Sys2Proof
end

