-- ==== Sys2Proof/Syntax.lean ====
section
/-! DEFINITION. The instructions of CORE: one constructor per row of spec/opcode_table.json
(30_encoding.md R55, R57). IDLE has no encoding, so it is no instruction (R56, R85). -/

namespace Sys2Proof

/-- One decoded instruction with the operands it uses (R57); the fields it ignores are not kept. -/
inductive Instr where
  /-- ADD(rd, rs1): `n` is the rs1 field's own number, not a register (R59, R74). -/
  | add (rd : RegIdx) (n : BitVec 5)
  /-- SUB(rd, rs1): `n` as for ADD (R59, R75). -/
  | sub (rd : RegIdx) (n : BitVec 5)
  /-- LOAD(rd, rs1, imm) (R80). -/
  | load (rd rs1 : RegIdx) (imm : BitVec 10)
  /-- STORE(rs1, rs2, imm): base rs1, stored register rs2 (R81). -/
  | store (rs1 rs2 : RegIdx) (imm : BitVec 10)
  /-- BREAK (R83). -/
  | brk
  deriving DecidableEq, Repr

end Sys2Proof
end

