-- ==== Sys2Proof/WellFormed.lean ====
section
/-! DEFINITION. Which instructions have a word: every operand fits its field (30_encoding.md R50 to
R53). Only rd can fail to fit, since its field is three bits wide under the default RD_FIELD. -/

namespace Sys2Proof

/-- The instruction has an encoding under this RD_FIELD (R50, R60). -/
def Instr.wf (rdf : RdField) : Instr → Bool
  | .add rd _ => decide (rd.val < rdf.count)
  | .sub rd _ => decide (rd.val < rdf.count)
  | .load rd _ _ => decide (rd.val < rdf.count)
  | .store _ _ _ => true
  | .brk => true

end Sys2Proof
end

