-- ==== Sys2Proof/Decode.lean ====
section
/-! DEFINITION. The bit-field extractor, the decoder and, after it, the encoder (30_encoding.md), with
the byte-order helpers they use (20_memory.md R30). -/

namespace Sys2Proof

/-! ## Bytes of a word -/

/-- The 32-bit word whose bytes, lowest address first, are the four given: little-endian (R10, R30). -/
def wordOfBytes (b0 b1 b2 b3 : Byte) : Word :=
  b0.setWidth 32 ||| b1.setWidth 32 <<< 8 ||| b2.setWidth 32 <<< 16 ||| b3.setWidth 32 <<< 24

/-- Byte `k` of a word, byte 0 the least significant, stored at the lowest address (R10, R30). -/
def byteOf (v : Word) (k : Nat) : Byte := v.extractLsb' (8 * k) 8

/-- The four bytes of a word in address order (R30). -/
def bytesOf (v : Word) : List Byte := [byteOf v 0, byteOf v 1, byteOf v 2, byteOf v 3]

/-! ## The field extractor -/

/-- `field(w, s, e)` of R47: the unsigned value of bits [s, e) in MSB-first numbering. The contract
0 ≤ s ≤ e ≤ 32 is an argument, so no value exists outside it (R48, I1). -/
def field (w : Word) (s e : Nat) (_contract : s ≤ e ∧ e ≤ 32) : Nat :=
  (w.toNat >>> (32 - e)) &&& (2 ^ (e - s) - 1)

/-- The opcode field, [0,7) (R49). -/
def opfOf (w : Word) : BitVec 7 := BitVec.ofNat 7 (field w 0 7 (by decide))

/-- The rs1 field, [12,17) (R51). -/
def rs1Of (w : Word) : BitVec 5 := BitVec.ofNat 5 (field w 12 17 (by decide))

/-- The rs2 field, [17,22) (R52). -/
def rs2Of (w : Word) : BitVec 5 := BitVec.ofNat 5 (field w 17 22 (by decide))

/-- The immediate field, [22,32) (R53). -/
def immOf (w : Word) : BitVec 10 := BitVec.ofNat 10 (field w 22 32 (by decide))

/-- A five-bit field names the register of its own number (R60). -/
def regOf (b : BitVec 5) : RegIdx := ⟨b.toNat, b.isLt⟩

/-- The rd field as a register: [8,11), or [7,12) under the alternative RD_FIELD (R50, R60). -/
def rdOf (rdf : RdField) (w : Word) : RegIdx :=
  match rdf with
  | .bits8to11 => regOf (BitVec.ofNat 5 (field w 8 11 (by decide)))
  | .bits7to12 => regOf (BitVec.ofNat 5 (field w 7 12 (by decide)))

/-! ## The decoder -/

/-- The variant of an instruction, as the current-opcode register records it (R21, R66). -/
def Instr.opcode : Instr → Opcode
  | .add _ _ => .add
  | .sub _ _ => .sub
  | .load _ _ _ => .load
  | .store _ _ _ => .store
  | .brk => .brk

/-- The decoder on one word: the table of R55 by exact match of the 7-bit opcode field, operands as
R57 lists them; `none` is the decode failure of R56. -/
def decodeWord (rdf : RdField) (w : Word) : Option Instr :=
  if opfOf w = 0x33#7 then some (.add (rdOf rdf w) (rs1Of w))
  else if opfOf w = 0x30#7 then some (.sub (rdOf rdf w) (rs1Of w))
  else if opfOf w = 0x03#7 then some (.load (rdOf rdf w) (regOf (rs1Of w)) (immOf w))
  else if opfOf w = 0x23#7 then some (.store (regOf (rs1Of w)) (regOf (rs2Of w)) (immOf w))
  else if opfOf w = 0x00#7 then some .brk
  else none

/-- Why a byte sequence is no instruction. -/
inductive DecodeReject where
  /-- fewer than the four bytes of an instruction (R46) -/
  | truncated (length : Nat)
  /-- the opcode field matches no row of the table (R56) -/
  | unknownOpcode (opf : BitVec 7)
  deriving DecidableEq, Repr

/-- The decoder on bytes in address order, total: the first four bytes are the instruction word,
little-endian (R30, R46). -/
def decodeBytes (rdf : RdField) : List Byte → Except DecodeReject Instr
  | b0 :: b1 :: b2 :: b3 :: _ =>
    match decodeWord rdf (wordOfBytes b0 b1 b2 b3) with
    | some i => .ok i
    | none => .error (.unknownOpcode (opfOf (wordOfBytes b0 b1 b2 b3)))
  | short => .error (.truncated short.length)

/-- The instruction the decoder of the reference configuration reads from a word numbered as
spec/opcode_table.json numbers it. -/
def decodeTableWord (nbits w : Nat) : Option Instr :=
  match decodeBytes Config.reference.rdField (bytesOf (BitVec.ofNat 32 (w % 2 ^ nbits))) with
  | .ok i => some i
  | .error _ => none

/-! ## The encoder -/

/-- The opcode field of each instruction (R55). -/
def Instr.opf : Instr → BitVec 7
  | .add _ _ => 0x33#7
  | .sub _ _ => 0x30#7
  | .load _ _ _ => 0x03#7
  | .store _ _ _ => 0x23#7
  | .brk => 0x00#7

/-- The rd field put in its place: `w[23:21]`, or `w[24:20]` under the alternative (R50). -/
def placeRd (rdf : RdField) (rd : RegIdx) : Word :=
  match rdf with
  | .bits8to11 => BitVec.ofNat 32 rd.val <<< 21
  | .bits7to12 => BitVec.ofNat 32 rd.val <<< 20

/-- The format of R54 read back: `opf << 25 | rd << 21 | rs1 << 15 | rs2 << 10 | imm10`. -/
def pack (opf : BitVec 7) (rd : Word) (rs1 rs2 : BitVec 5) (imm : BitVec 10) : Word :=
  opf.setWidth 32 <<< 25 ||| rd ||| rs1.setWidth 32 <<< 15 ||| rs2.setWidth 32 <<< 10 |||
    imm.setWidth 32

/-- The word of a well-formed instruction: unused bits and ignored fields are 0 (R63). -/
def encode (rdf : RdField) (i : Instr) : Word :=
  match i with
  | .add rd n => pack i.opf (placeRd rdf rd) n 0 0
  | .sub rd n => pack i.opf (placeRd rdf rd) n 0 0
  | .load rd rs1 imm => pack i.opf (placeRd rdf rd) (BitVec.ofNat 5 rs1.val) 0 imm
  | .store rs1 rs2 imm => pack i.opf 0 (BitVec.ofNat 5 rs1.val) (BitVec.ofNat 5 rs2.val) imm
  | .brk => pack i.opf 0 0 0 0

end Sys2Proof
end

