-- ==== Sys2Proof/Machine/State.lean ====
section
/-! DEFINITION. The state of CORE (10_state.md R12), the faults it records, and why a step or a move of
the host can stop. -/

namespace Sys2Proof.Machine

/-- The run state (R22). -/
inductive RunState where
  | running
  | halted
  | faulted
  deriving DecidableEq, Repr

/-- The fault record's values with their payloads (R86, D7). A fault is part of CORE's state; the step
that raises it is an ordinary step into FAULTED (R88). -/
inductive FaultInfo where
  /-- the 7-bit opcode field that matched no row (R56) -/
  | unknownOpcode (opf : BitVec 7)
  /-- the byte address of the access: `pc` for a fetch, the effective address for LOAD and STORE -/
  | outOfBoundsAccess (addr : Int)
  /-- the number of words offered to the Loader -/
  | outOfBoundsLoad (words : Nat)
  deriving DecidableEq, Repr

/-- Why `step` has no next state. CORE's own faults are not here: they are FaultInfo, in the state. -/
inductive Fault where
  /-- Raised by `step` alone, when `run` is HALTED: no step is enabled (R22, R64). Safe: the hardware
  takes no step there either. -/
  | coreHalted
  /-- Raised by `step` alone, when `run` is FAULTED: no step is enabled (R22, R91). Safe: the hardware
  takes no step there either. -/
  | coreFaulted
  deriving DecidableEq, Repr

/-- What the model gives no meaning to. -/
inductive Refusal where
  /-- Raised by an arm of `exec` that has no meaning yet; no arm is left. Safe. -/
  | notModelled (mnemonic : String)
  /-- Raised by `Session.load` alone: a second load, or a load after the run (R105, D11, I16). Safe: the
  spec defines no effect for it. -/
  | loadNotFirst
  deriving DecidableEq, Repr

/-- Memory: the bytes that differ from the reset value 0, as (address, byte) pairs (R26). -/
abbrev Memory := List Host.Cell

/-- What an unlisted address reads as: the reset contents of memory (R26, R103). -/
def Memory.unlisted : Byte := 0

/-- The canonical form: addresses strictly rising, no entry equal to what an unlisted address reads
as. Equal memories are then equal lists. The form is the model's choice (notes/assumptions/13.md). -/
abbrev Memory.wf (m : Memory) : Prop :=
  m.Pairwise (fun c d => c.1 < d.1) ∧ ∀ c ∈ m, c.2 ≠ Memory.unlisted

/-- The state of CORE: exactly the six pieces of R12, and the configuration it was built with, which no
step changes (R6; notes/assumptions/1.md). -/
structure State where
  /-- the parameters of R6; the model's own field -/
  cfg   : Config
  /-- x0 to x31 (R13) -/
  regs  : Vector Word 32
  /-- the byte offset of the next instruction to fetch (R18, D8) -/
  pc    : Word
  /-- the variant the last successful decode produced (R21) -/
  opc   : Opcode
  /-- RUNNING, HALTED or FAULTED (R22) -/
  run   : RunState
  /-- the fault record (R23) -/
  fault : Option FaultInfo
  /-- M[0 .. MEM_SIZE-1] (R26) -/
  mem   : Memory
  deriving DecidableEq, Repr

/-- The reset values of R12 and R103 for one configuration. -/
def State.resetWith (cfg : Config) : State where
  cfg   := cfg
  regs  := Vector.replicate 32 0
  pc    := 0
  opc   := .idle
  run   := .running
  fault := none
  mem   := []

/-- CORE right after reset, in the reference configuration (R6, R103). -/
def State.reset : State := State.resetWith Config.reference

end Sys2Proof.Machine
end

