-- ==== Sys2Proof/Machine/Ops.lean ====
section
/-! DEFINITION. The shared operations over registers and memory, and the one way CORE raises a fault.
CORE has no trap entry and no trap return (60_exceptions.md R90, R91): `raise` is all there is. -/

namespace Sys2Proof.Machine

/-! ## Registers -/

/-- MEM_SIZE as a number (R6). -/
def State.memSize (s : State) : Nat := s.cfg.memSize.val

/-- `x[i]` (R10). No register is hard-wired (R14). -/
def State.reg (s : State) (i : RegIdx) : Word := s.regs[i.val]'i.isLt

/-- `x[i] <- v` (R10, R14). -/
def State.setReg (s : State) (i : RegIdx) (v : Word) : State :=
  { s with regs := s.regs.set i.val v i.isLt }

/-- The state with its memory replaced. -/
def State.setMem (s : State) (m : Memory) : State := { s with mem := m }

/-! ## Memory, one byte at a time -/

/-- `M[a]` (R10). -/
def Memory.read : Memory → Nat → Byte
  | [], _ => Memory.unlisted
  | (k, v) :: rest, a => if k = a then v else Memory.read rest a

/-- Put the cell (a, b) before the first cell of a higher address. -/
def Memory.place : Memory → Nat → Byte → Memory
  | [], a, b => [(a, b)]
  | (k, v) :: rest, a, b =>
    if a < k then (a, b) :: (k, v) :: rest else (k, v) :: Memory.place rest a b

/-- `M[a] <- b`, keeping the canonical form (R10). -/
def Memory.write (m : Memory) (a : Nat) (b : Byte) : Memory :=
  let rest : Memory := m.filter (fun c => decide (c.1 ≠ a))
  if b = Memory.unlisted then rest else rest.place a b

/-! ## Memory, one word at a time -/

/-- `MemRead(a, 4)` (R10, R30). The caller has checked the bounds. -/
def memRead (m : Memory) (a : Nat) : Word :=
  wordOfBytes (m.read a) (m.read (a + 1)) (m.read (a + 2)) (m.read (a + 3))

/-- `MemWrite(a, 4, v)` (R10, R30). The caller has checked the bounds. -/
def memWrite (m : Memory) (a : Nat) (v : Word) : Memory :=
  (((m.write a (byteOf v 0)).write (a + 1) (byteOf v 1)).write (a + 2) (byteOf v 2)).write (a + 3)
    (byteOf v 3)

/-! ## Faults and the halt -/

/-- `raise F(info)`: the fault record and the run state are written and nothing else (R10, R88). The
step ends here: stage 5 follows only while `run` is RUNNING. -/
def raise (f : FaultInfo) (s : State) : State := { s with fault := some f, run := .faulted }

/-- `halt`: `run <- HALTED` (R10, R83). -/
def halt (s : State) : State := { s with run := .halted }

/-- The spec's own number of a fault (R86, D18). -/
def FaultInfo.code : FaultInfo → Nat
  | .unknownOpcode _ => 1
  | .outOfBoundsAccess _ => 2
  | .outOfBoundsLoad _ => 3

end Sys2Proof.Machine
end

