-- ==== Sys2Proof/Machine/Flags.lean ====
section
/-! DEFINITION. The results of the ALU. CORE has no flags, condition codes or predicates, and ADD and SUB
record neither carry nor overflow (10_state.md R25), so a result is all an ALU operation gives. -/

namespace Sys2Proof.Machine

/-- `(a + zext_32(n)) mod 2^32` (R74, R76). -/
def aluAdd (a : Word) (n : BitVec 5) : Word := a + n.setWidth 32

/-- `(a - zext_32(n)) mod 2^32` (R75, R76). -/
def aluSub (a : Word) (n : BitVec 5) : Word := a - n.setWidth 32

end Sys2Proof.Machine
end

