-- ==== Sys2Proof/Machine/Alu.lean ====
section
/-! DEFINITION. ADD and SUB (41_alu.md). A meaning is stage 4 of the step (40_engine.md R67): the program
counter is advanced after it, by stage 5. -/

namespace Sys2Proof.Machine

/-- ADD: `x[rd] <- (x[rd] + zext_32(rs1)) mod 2^32`, with the rs1 field's own number (R74, R77). -/
def execAdd (rd : RegIdx) (n : BitVec 5) (s : State) : Host.Outcome State Fault Refusal :=
  .next (s.setReg rd (aluAdd (s.reg rd) n))

/-- SUB: `x[rd] <- (x[rd] - zext_32(rs1)) mod 2^32` (R75, R77). -/
def execSub (rd : RegIdx) (n : BitVec 5) (s : State) : Host.Outcome State Fault Refusal :=
  .next (s.setReg rd (aluSub (s.reg rd) n))

end Sys2Proof.Machine
end

