-- ==== Sys2Proof/Machine/Operands.lean ====
section
/-! DEFINITION. The one operand form that computes: base plus offset, with the bounds check of LOAD and
STORE (42_load_store.md R78, R79). -/

namespace Sys2Proof.Machine

/-- `sint32(v)`: a word read as a two's-complement integer (R9, G1). -/
def sint32 (v : Word) : Int := if v.toNat < 2 ^ 31 then (v.toNat : Int) else (v.toNat : Int) - 2 ^ 32

/-- The offset of LOAD and STORE under IMM_EXT (R58, D2): not scaled, not shifted. -/
def offset (ext : ImmExt) (imm : BitVec 10) : Int :=
  match ext with
  | .zero => (imm.toNat : Int)
  | .sign => if imm.toNat < 2 ^ 9 then (imm.toNat : Int) else (imm.toNat : Int) - 2 ^ 10

/-- The effective address, in the unbounded integers: no wrap (R79, D3). -/
def effectiveAddress (s : State) (rs1 : RegIdx) (imm : BitVec 10) : Int :=
  sint32 (s.reg rs1) + offset s.cfg.immExt imm

/-- The four bytes at `a` lie in memory (R36). -/
abbrev InBounds (s : State) (a : Int) : Prop := 0 ≤ a ∧ a + 4 ≤ (s.memSize : Int)

end Sys2Proof.Machine
end

