-- ==== Sys2Proof/Machine/LoadStore.lean ====
section
/-! DEFINITION. LOAD and STORE (42_load_store.md). A meaning is stage 4 of the step (40_engine.md R67). An
access out of bounds is CORE's fault, a step into FAULTED that moves no byte (R36, R88). -/

namespace Sys2Proof.Machine

/-- LOAD: the whole range is checked, then `x[rd] <- MemRead(ea, 4)`; the address uses the old
`x[rs1]` (R80). -/
def execLoad (rd rs1 : RegIdx) (imm : BitVec 10) (s : State) : Host.Outcome State Fault Refusal :=
  let ea := effectiveAddress s rs1 imm
  if InBounds s ea then .next (s.setReg rd (memRead s.mem ea.toNat))
  else .next (raise (.outOfBoundsAccess ea) s)

/-- STORE: the whole range is checked, then `MemWrite(ea, 4, x[rs2])` (R81). -/
def execStore (rs1 rs2 : RegIdx) (imm : BitVec 10) (s : State) : Host.Outcome State Fault Refusal :=
  let ea := effectiveAddress s rs1 imm
  if InBounds s ea then .next (s.setMem (memWrite s.mem ea.toNat (s.reg rs2)))
  else .next (raise (.outOfBoundsAccess ea) s)

end Sys2Proof.Machine
end

