-- ==== Sys2Proof/Machine/System.lean ====
section
/-! DEFINITION. BREAK (43_system.md). IDLE has no encoding and no arm (R85, I11). -/

namespace Sys2Proof.Machine

/-- BREAK: `run <- HALTED`; the program counter keeps the address of the BREAK (R83). -/
def execBreak (s : State) : Host.Outcome State Fault Refusal := .next (halt s)

end Sys2Proof.Machine
end

