-- ==== Sys2Proof/Machine/Dispatch.lean ====
section
/-! DEFINITION. Stage 4 of the step: one meaning per instruction (40_engine.md R64, R67). -/

namespace Sys2Proof.Machine

def exec (i : Instr) (s : State) : Host.Outcome State Fault Refusal :=
  match i with
  | .add rd n => Sys2Proof.Machine.execAdd rd n s
  | .sub rd n => Sys2Proof.Machine.execSub rd n s
  | .load rd rs1 imm => Sys2Proof.Machine.execLoad rd rs1 imm s
  | .store rs1 rs2 imm => Sys2Proof.Machine.execStore rs1 rs2 imm s
  | .brk => Sys2Proof.Machine.execBreak s

end Sys2Proof.Machine
end

