-- ==== Sys2Proof/Machine/Engine.lean ====
section
/-! DEFINITION. The stages of the step around stage 4: fetch, the write of `opc`, the program-counter
sequencer, and the check at run entry (40_engine.md R64 to R70). -/

namespace Sys2Proof.Machine

/-- Stage 1: the word at `pc`, or nothing when fewer than four bytes remain (R65). -/
def fetch (s : State) : Option Word :=
  if s.pc.toNat + 4 ≤ s.memSize then some (memRead s.mem s.pc.toNat) else none

/-- The fault of a fetch that finds fewer than four bytes (R65, R86). -/
def fetchFault (s : State) : State := raise (.outOfBoundsAccess (s.pc.toNat : Int)) s

/-- The fault of a word whose opcode field matches no row; `opc` keeps its value (R66, R86). -/
def decodeFault (w : Word) (s : State) : State := raise (.unknownOpcode (opfOf w)) s

/-- Stage 3 after a match: the variant is written to `opc` before stage 4 (R66). -/
def latch (i : Instr) (s : State) : State := { s with opc := i.opcode }

/-- Stage 5: `pc <- pc + 4`, then HALTED if that has left memory (R68, R69). -/
def advance (s : State) : State :=
  { s with
    pc  := s.pc + 4
    run := if s.memSize ≤ (s.pc + 4).toNat then .halted else s.run }

/-- What follows stage 4: stage 5 while CORE is still RUNNING; after BREAK or a fault the step has
ended (R68, R88). -/
def endStep (o : Host.Outcome State Fault Refusal) : Host.Outcome State Fault Refusal :=
  match o with
  | .next t => .next (if t.run = .running then advance t else t)
  | .fault f => .fault f
  | .refused r => .refused r

/-- The check at run entry: a RUNNING core whose `pc` is not in memory halts without fetching (R70). -/
def runEntry (s : State) : State :=
  if s.run = .running ∧ s.memSize ≤ s.pc.toNat then halt s else s

end Sys2Proof.Machine
end

