-- ==== Sys2Proof/Machine/Step.lean ====
section
/-! DEFINITION. One step of CORE (40_engine.md R64), enabled exactly when `run` is RUNNING. -/

namespace Sys2Proof.Machine

/-- The step of R64: fetch, extract, decode, execute, advance. -/
def step (s : State) : Host.Outcome State Fault Refusal :=
  match s.run with
  | .halted => .fault .coreHalted
  | .faulted => .fault .coreFaulted
  | .running =>
    match fetch s with
    | none => .next (fetchFault s)
    | some w =>
      match decodeWord s.cfg.rdField w with
      | none => .next (decodeFault w s)
      | some i => endStep (exec i (latch i s))

/-- The state with the word stored at `pc`, where the step fetches; a `pc` with fewer than four bytes
left has no place for it (notes/assumptions/8.md). -/
def State.withFetchWord (s : State) (nbits w : Nat) : State :=
  if s.pc.toNat + 4 ≤ s.memSize then
    s.setMem (memWrite s.mem s.pc.toNat (BitVec.ofNat 32 (w % 2 ^ nbits)))
  else s

end Sys2Proof.Machine
end

