-- ==== Sys2Proof/Machine/HostPort.lean ====
section
/-! DEFINITION. CORE's interface to its host: load, run and the observation port
(70_reset_and_hazards.md R104 to R111). The host has no move during a run (R109), so a run is one move. -/

namespace Sys2Proof.Machine

/-! ## Load -/

/-- Word `i` of the list to address `4 * (k + i)`, in order (R104). -/
def writeWords : List Word → Nat → Memory → Memory
  | [], _, m => m
  | w :: ws, k, m => writeWords ws (k + 1) (memWrite m (4 * k) w)

/-- `load(words)`: the length is checked before any word is written (R104, D11). -/
def loadWords (words : List Word) (s : State) : State :=
  if s.memSize < 4 * words.length then raise (.outOfBoundsLoad words.length) s
  else s.setMem (writeWords words 0 s.mem)

/-! ## Run -/

/-- `ceil(MEM_SIZE / 4)`, the most steps a run takes (R73). -/
def stepBound (s : State) : Nat := (s.memSize + 3) / 4

/-- Repeat the step while CORE is RUNNING, at most the given number of times (R106). -/
def runLoop : Nat → State → State
  | 0, s => s
  | k + 1, s =>
    if s.run = .running then
      match step s with
      | .next t => runLoop k t
      | .fault _ => s
      | .refused _ => s
    else s

/-- `run()`: the entry check, then the step until CORE is HALTED or FAULTED (R70, R106). R73 says that
the bound never cuts a run short. -/
def runToEnd (s : State) : State := runLoop (stepBound s) (runEntry s)

/-! ## Observation -/

/-- What the observation port presents after one step (R108). -/
inductive Observation where
  /-- after a step that raised no fault -/
  | snapshot (pc : Word) (opc : Opcode) (regs : Vector Word 32)
  /-- after a faulting step -/
  | faultRecord (f : FaultInfo)
  deriving DecidableEq, Repr

/-- The port after a step that ended in `s` (R108). Observation changes no state: this is a function. -/
def observe (s : State) : Observation :=
  match s.run, s.fault with
  | .faulted, some f => .faultRecord f
  | _, _ => .snapshot s.pc s.opc s.regs

/-- What the port presents over a run of at most `k` steps, first step first (R108). -/
def observeRun : Nat → State → List Observation
  | 0, _ => []
  | k + 1, s =>
    match step s with
    | .next t => observe t :: observeRun k t
    | .fault _ => []
    | .refused _ => []

/-- What the host reads at termination: `pc`, `opc`, the registers, `run`, `fault` and memory (R108,
R111). -/
structure FinalView where
  pc    : Word
  opc   : Opcode
  regs  : Vector Word 32
  run   : RunState
  fault : Option FaultInfo
  mem   : Memory
  deriving DecidableEq, Repr

/-- The final view is there only once the run has ended (R108, R111). -/
def finalView (s : State) : Option FinalView :=
  if s.run = .running then none
  else some { pc := s.pc, opc := s.opc, regs := s.regs, run := s.run, fault := s.fault, mem := s.mem }

/-! ## The order of the host's moves -/

/-- How far the host is in the order reset, load, run (R105, R110). The model's own bookkeeping: CORE has
no such state (R12), so it stands beside the core and not in it. -/
inductive Phase where
  | created
  | loaded
  | ended
  deriving DecidableEq, Repr

/-- CORE with the host in front of it. -/
structure Session where
  core  : State
  phase : Phase
  deriving DecidableEq, Repr

/-- Reset, the creation of the state (R103, D16). -/
def Session.create (cfg : Config) : Session := { core := State.resetWith cfg, phase := .created }

/-- `load`, at most once and only on the reset state (R105). -/
def Session.load (words : List Word) (h : Session) : Host.Outcome Session Fault Refusal :=
  match h.phase with
  | .created => .next { core := loadWords words h.core, phase := .loaded }
  | .loaded => .refused .loadNotFirst
  | .ended => .refused .loadNotFirst

/-- `run()`, at any time; on a stopped core it changes nothing (R106, R107). -/
def Session.run (h : Session) : Session := { core := runToEnd h.core, phase := .ended }

end Sys2Proof.Machine
end

