-- ==== Sys2Proof/Safety.lean ====
section
/-! DEFINITION. What counts as a legal state and a good end of a run, and the words the statements use.
Those words read an instruction word by the spec's conventional bit numbers (00_scope.md R8) and by core
BitVec operations, not by the model's own extractor, so that a statement can find the extractor wrong. -/

namespace Sys2Proof.Machine

/-! ## Legal states -/

/-- The fault record is there exactly in FAULTED (R22, R23, R93). -/
abbrev State.FaultMatchesRun (s : State) : Prop := s.run = .faulted ↔ s.fault ≠ none

/-- The program counter is a multiple of 4, and in memory while a step is enabled (R19, R72). -/
abbrev State.PcLegal (s : State) : Prop :=
  s.pc.toNat % 4 = 0 ∧ s.pc.toNat ≤ s.memSize + 3 ∧ (s.run = .running → s.pc.toNat < s.memSize)

/-- Memory is canonical, the model's choice (notes/assumptions/13.md), and lists no address outside the
machine's memory (R26). -/
abbrev State.MemLegal (s : State) : Prop := s.mem.wf ∧ ∀ c ∈ s.mem, c.1 < s.memSize

/-- The registers the rd field cannot name still hold 0 (R16). -/
abbrev State.UnreachableZero (s : State) : Prop :=
  ∀ i : RegIdx, s.cfg.rdField.count ≤ i.val → s.reg i = 0

/-- The invariant of CORE. -/
structure State.Inv (s : State) : Prop where
  faults : s.FaultMatchesRun
  pc     : s.PcLegal
  mem    : s.MemLegal
  regs   : s.UnreachableZero

/-- A good end of a run: HALTED with no fault (R93). -/
abbrev State.EndedWell (s : State) : Prop := s.run = .halted ∧ s.fault = none

/-! ## Words for statements -/

/-- A step is enabled and fetches the word `w` (R64, R65). -/
abbrev State.Fetches (s : State) (w : Word) : Prop :=
  s.run = .running ∧ s.pc.toNat + 4 ≤ s.memSize ∧ memRead s.mem s.pc.toNat = w

/-- The opcode field by its conventional bits, `w[31:25]` (R49). -/
def opcodeBits (w : Word) : BitVec 7 := w.extractLsb' 25 7

/-- The rd number by its conventional bits: `w[23:21]`, or `w[24:20]` (R50). -/
def destBits (rdf : RdField) (w : Word) : Nat :=
  match rdf with
  | .bits8to11 => (w.extractLsb' 21 3).toNat
  | .bits7to12 => (w.extractLsb' 20 5).toNat

/-- The register named by five bits from bit `lo` (R51, R52). -/
def sourceBits (w : Word) (lo : Nat) : RegIdx := ⟨(w.extractLsb' lo 5).toNat, BitVec.isLt _⟩

/-- The address of a LOAD or STORE word: the base as a signed integer plus `w[9:0]`, read unsigned or,
under IMM_EXT = Sign, signed (R58, R79). -/
def addressBits (s : State) (w : Word) : Int :=
  (s.reg (sourceBits w 15)).toInt +
    match s.cfg.immExt with
    | .zero => ((w.extractLsb' 0 10).toNat : Int)
    | .sign => (w.extractLsb' 0 10).toInt

/-- The program counter has advanced by one instruction, and the run state says whether that left
memory (R68, R69). -/
abbrev Advanced (s t : State) : Prop :=
  t.pc.toNat = s.pc.toNat + 4 ∧
    t.run = if s.pc.toNat + 4 ≥ s.memSize then .halted else .running

/-- Everything but registers and memory is the same. -/
abbrev SameControl (s t : State) : Prop :=
  t.cfg = s.cfg ∧ t.pc = s.pc ∧ t.opc = s.opc ∧ t.run = s.run ∧ t.fault = s.fault

/-- Every byte of memory reads the same. -/
def SameMemory (s t : State) : Prop := ∀ a : Nat, t.mem.read a = s.mem.read a

/-- Every general register reads the same. -/
abbrev SameRegisters (s t : State) : Prop := ∀ i : RegIdx, t.reg i = s.reg i

/-- The step ended in a fault that wrote the fault record and the run state and, but perhaps for `opc`,
nothing else (R88, which rests on D5 and D6). -/
def FaultedOnly (s t : State) : Prop :=
  t.run = .faulted ∧ t.pc = s.pc ∧ t.cfg = s.cfg ∧ SameRegisters s t ∧ SameMemory s t

/-- The fault record names an access out of bounds, whatever its payload (I13). -/
def State.HasAccessFault (s : State) : Prop := ∃ a, s.fault = some (.outOfBoundsAccess a)

/-- The fault record names an unknown opcode, whatever its payload (I13). -/
def State.HasOpcodeFault (s : State) : Prop := ∃ b, s.fault = some (.unknownOpcode b)

/-- The fault record names a program too long for memory, whatever its payload (I13). -/
def State.HasLoadFault (s : State) : Prop := ∃ n, s.fault = some (.outOfBoundsLoad n)

end Sys2Proof.Machine
end

