-- ==== Sys2Proof/Certificates/Slice0/Obligations.lean ====
section
/-! DEFINITION. The statements for the provers. Each docstring names the rule of spec/ it formalises and,
where it rests on a decision the spec or the model took, that decision. -/

open Sys2Proof Sys2Proof.Machine

/-! ## Reset and the host's moves -/

/-- R103, R12, R13: the reset values, in every configuration; the entry point is address 0 and no vector is
read, so the first fetch is the word at 0 whatever memory holds. The configuration clauses are R6 with the
spec's decisions D1 (512), D2 (Zero) and D17 ([8,11)) (notes/assumptions/2.md to 4.md); that the
configuration stands in State and survives reset is the model's choice (notes/assumptions/1.md). -/
def Obligations.ResetLeavesTheSpecsValues : Prop :=
  (∀ cfg : Config,
    (∀ i, (State.resetWith cfg).reg i = 0) ∧ (State.resetWith cfg).pc = 0 ∧
    (State.resetWith cfg).opc = .idle ∧ (State.resetWith cfg).run = .running ∧
    (State.resetWith cfg).fault = none ∧ (∀ a, (State.resetWith cfg).mem.read a = 0) ∧
    (State.resetWith cfg).cfg = cfg ∧
    ∀ m : Memory, 4 ≤ cfg.memSize.val →
      fetch ((State.resetWith cfg).setMem m) = some (memRead m 0)) ∧
  State.reset.memSize = 512 ∧ State.reset.cfg.immExt = .zero ∧
  State.reset.cfg.rdField = .bits8to11

/-- R104: a program that fits is written little-endian from address 0 up, one word every four bytes, and
every byte from 4n up and every other piece of state keeps its value. `4 * n = MEM_SIZE` fits. -/
def Obligations.LoadWritesEachWordLittleEndian : Prop :=
  ∀ (words : List Word) (s : State), 4 * words.length ≤ s.memSize →
    (∀ (i : Nat) (hi : i < words.length) (k : Nat), k < 4 →
      (loadWords words s).mem.read (4 * i + k) = words[i].extractLsb' (8 * k) 8) ∧
    (∀ a, 4 * words.length ≤ a → (loadWords words s).mem.read a = s.mem.read a) ∧
    SameControl s (loadWords words s) ∧ SameRegisters s (loadWords words s)

/-- R104: a program that does not fit raises OutOfBoundsLoad. That nothing is written then is the spec's
decision D11; only the kind of the fault is stated (I13). -/
def Obligations.LoadTooLongFaultsAndWritesNothing : Prop :=
  ∀ (words : List Word) (s : State), s.memSize < 4 * words.length →
    (loadWords words s).HasLoadFault ∧ FaultedOnly s (loadWords words s) ∧
    (loadWords words s).opc = s.opc

/-- R105 (D11): `load` is taken once, before the run; a second load and a load after the run are refused. -/
def Obligations.LoadIsTakenOnceBeforeTheRun : Prop :=
  ∀ (cfg : Config) (words more : List Word),
    ∃ h, (Session.create cfg).load words = .next h ∧
      h.core = loadWords words (State.resetWith cfg) ∧
      h.load more = .refused .loadNotFirst ∧
      h.run.load more = .refused .loadNotFirst ∧
      (Session.create cfg).run.load more = .refused .loadNotFirst

/-- R70 (D9): the check at run entry. A running core whose `pc` is not in memory halts without a fetch,
`opc`, registers and memory as they were; every other state is left as it is. -/
def Obligations.RunEntryHaltsOutsideMemory : Prop :=
  ∀ s : State,
    (s.run = .running → s.memSize ≤ s.pc.toNat →
      (runEntry s).run = .halted ∧ (runEntry s).pc = s.pc ∧ (runEntry s).opc = s.opc ∧
      (runEntry s).fault = s.fault ∧ (runEntry s).cfg = s.cfg ∧ SameRegisters s (runEntry s) ∧
      SameMemory s (runEntry s)) ∧
    (s.run ≠ .running ∨ s.pc.toNat < s.memSize → runEntry s = s)

/-- R73, which the spec derives from R68 and R69: from every state, legal or not, the run that starts there,
with the entry check of R70 (D9), stops within ceil of the memory left over 4 steps, by steps that all
answer a next state; from `pc` = 0 that is ceil(MEM_SIZE / 4). -/
def Obligations.EveryRunStopsWithinTheBound : Prop :=
  ∀ s : State, ∃ (k : Nat) (t : State),
    k ≤ (s.memSize - s.pc.toNat + 3) / 4 ∧
    Host.Core.run Sys2Proof.core k (runEntry s) = .next t ∧ t.run ≠ .running

/-- R106, R70 (D9): `run()` is the entry check followed by steps while CORE is RUNNING: the bound that makes
it a total function never cuts a run short. -/
def Obligations.RunRepeatsTheStepUntilItStops : Prop :=
  ∀ s : State,
    (runToEnd s).run ≠ .running ∧
    (s.run = .running → s.pc.toNat < s.memSize →
      ∃ t, step s = .next t ∧ runToEnd s = runToEnd t) ∧
    (s.run = .running → s.memSize ≤ s.pc.toNat → runToEnd s = halt s)

/-- R107 (D10), R22, R102: `run()` on a stopped core changes nothing, and so does a second `run()`. -/
def Obligations.RunOfAStoppedCoreChangesNothing : Prop :=
  (∀ s : State, s.run ≠ .running → runToEnd s = s) ∧
  ∀ s : State, runToEnd (runToEnd s) = runToEnd s

/-- R93, which the spec derives from R22, R86 and R88: a run ends HALTED with no fault or FAULTED with one,
from every state whose fault record is there exactly in FAULTED. -/
def Obligations.RunEndsHaltedOrWithAFault : Prop :=
  ∀ s : State, s.FaultMatchesRun →
    (runToEnd s).EndedWell ∨ ((runToEnd s).run = .faulted ∧ ∃ f, (runToEnd s).fault = some f)

/-- R112, which the spec derives (90_conflicts.md C5): load n words that fit and run. If the run raises no
fault, and no step turns a slot at or after its `pc` into a word that is not a BREAK, CORE halts with no
fault, with `pc` the lowest slot below 4n whose word was a BREAK when `pc` reached it, or 4n. -/
def Obligations.RunEndsAtTheFirstBreakOrTheEnd : Prop :=
  ∀ (cfg : Config) (words : List Word), 4 * words.length ≤ cfg.memSize.val →
    let s := runEntry (loadWords words (State.resetWith cfg))
    (∀ k t, Host.Core.run Sys2Proof.core k s = .next t → t.run ≠ .faulted) →
    (∀ k t t', Host.Core.run Sys2Proof.core k s = .next t → step t = .next t' →
      ∀ j, t.pc.toNat ≤ 4 * j → 4 * j + 4 ≤ t.memSize →
        memRead t'.mem (4 * j) ≠ memRead t.mem (4 * j) →
        opcodeBits (memRead t'.mem (4 * j)) = 0) →
    ∃ (k m : Nat) (t : State),
      Host.Core.run Sys2Proof.core k s = .next t ∧ t.EndedWell ∧ t.pc.toNat = 4 * m ∧
      m ≤ words.length ∧
      (m < words.length → opcodeBits (memRead t.mem (4 * m)) = 0) ∧
      (m = words.length → 4 * m = cfg.memSize.val ∨ opcodeBits (memRead t.mem (4 * m)) = 0) ∧
      ∀ j, j < m → ∃ u, Host.Core.run Sys2Proof.core j s = .next u ∧ u.pc.toNat = 4 * j ∧
        opcodeBits (memRead u.mem (4 * j)) ≠ 0

/-- R108 (D13): after a step without a fault the port presents `pc`, `opc` and the registers as they stand
after that step; after a faulting step it presents the fault record; at termination the host reads all of
CORE's state. Over a run the port presents one observation for each step, in order: the one after step j + 1
is of the state that j + 1 steps end in. A stopped core takes no step and presents none. -/
def Obligations.PortPresentsThePostStepState : Prop :=
  (∀ s t : State, step s = .next t →
    (t.run ≠ .faulted → observe t = .snapshot t.pc t.opc t.regs) ∧
    (t.run = .faulted → ∃ f, t.fault = some f ∧ observe t = .faultRecord f) ∧
    (t.run = .running → finalView t = none) ∧
    (t.run ≠ .running → finalView t =
      some { pc := t.pc, opc := t.opc, regs := t.regs, run := t.run, fault := t.fault,
             mem := t.mem }) ∧
    ∀ k, observeRun (k + 1) s = observe t :: observeRun k t) ∧
  (∀ (s : State) (k : Nat), s.run ≠ .running → observeRun k s = []) ∧
  ∀ (s u : State) (k j : Nat), j < k → Host.Core.run Sys2Proof.core (j + 1) s = .next u →
    (observeRun k s)[j]? = some (observe u)

/-! ## Encoding -/

/-- R47: the extractor inside its contract. The field is below 2^(e-s), the whole word is the field [0,32),
an empty range gives 0, and bit k of the field is the word's MSB-first bit e-1-k. -/
def Obligations.ExtractorNumbersBitsFromTheTop : Prop :=
  ∀ (w : Word) (s e : Nat) (h : s ≤ e ∧ e ≤ 32),
    field w s e h = (w.toNat >>> (32 - e)) &&& (2 ^ (e - s) - 1) ∧
    field w s e h < 2 ^ (e - s) ∧
    field w 0 32 (by decide) = w.toNat ∧
    field w s s ⟨Nat.le_refl s, Nat.le_trans h.1 h.2⟩ = 0 ∧
    ∀ k, k < e - s → (field w s e h).testBit k = w.getMsbD (e - 1 - k)

/-- R49 to R53: the five fields by their conventional bits, rd under both readings of RD_FIELD. -/
def Obligations.FieldsAreTheSpecsBits : Prop :=
  ∀ w : Word,
    opfOf w = w.extractLsb' 25 7 ∧ (rdOf .bits8to11 w).val = (w.extractLsb' 21 3).toNat ∧
    (rdOf .bits7to12 w).val = (w.extractLsb' 20 5).toNat ∧ rs1Of w = w.extractLsb' 15 5 ∧
    rs2Of w = w.extractLsb' 10 5 ∧ immOf w = w.extractLsb' 0 10

/-- R55, R57: the decoder's table, each row with the operands it uses, read from the conventional bits. -/
def Obligations.DecoderFollowsTheTable : Prop :=
  ∀ (rdf : RdField) (w : Word) (i : Instr), decodeWord rdf w = some i ↔
    (opcodeBits w = 0x33#7 ∧ ∃ rd : RegIdx, rd.val = destBits rdf w ∧
      i = .add rd (w.extractLsb' 15 5)) ∨
    (opcodeBits w = 0x30#7 ∧ ∃ rd : RegIdx, rd.val = destBits rdf w ∧
      i = .sub rd (w.extractLsb' 15 5)) ∨
    (opcodeBits w = 0x03#7 ∧ ∃ rd : RegIdx, rd.val = destBits rdf w ∧
      i = .load rd (sourceBits w 15) (w.extractLsb' 0 10)) ∨
    (opcodeBits w = 0x23#7 ∧
      i = .store (sourceBits w 15) (sourceBits w 10) (w.extractLsb' 0 10)) ∨
    (opcodeBits w = 0x00#7 ∧ i = .brk)

/-- R56: every other value of the opcode field, 123 of the 128, is a decode failure, whatever the other 25
bits are; the step that meets it raises UnknownOpcode of that field. That the payload is the 7-bit field is
the spec's decision D7. -/
def Obligations.OtherOpcodeValuesAreUnknown : Prop :=
  (∀ (rdf : RdField) (w : Word), decodeWord rdf w = none ↔
    opcodeBits w ∉ [0x00#7, 0x03#7, 0x23#7, 0x30#7, 0x33#7]) ∧
  (∀ (rdf : RdField) (low : BitVec 25),
    ((List.range 128).filter fun v =>
      (decodeWord rdf (BitVec.ofNat 7 v ++ low)).isNone).length = 123) ∧
  ∀ (s : State) (w : Word), s.Fetches w →
    opcodeBits w ∉ [0x00#7, 0x03#7, 0x23#7, 0x30#7, 0x33#7] →
    ∃ t, step s = .next t ∧ t.run = .faulted ∧ t.fault = some (.unknownOpcode (opcodeBits w))

/-- R57: two words that agree on the fields their variant uses decode to the same instruction, so the unused
bits and the ignored fields never matter. The masks are the used bits of each row. -/
def Obligations.IgnoredBitsNeverMatter : Prop :=
  ∀ (rdf : RdField) (v w : Word),
    let mask : Word :=
      if opcodeBits v = 0x33#7 ∨ opcodeBits v = 0x30#7 then
        (match rdf with | .bits8to11 => 0xFEEF8000#32 | .bits7to12 => 0xFFFF8000#32)
      else if opcodeBits v = 0x03#7 then
        (match rdf with | .bits8to11 => 0xFEEF83FF#32 | .bits7to12 => 0xFFFF83FF#32)
      else if opcodeBits v = 0x23#7 then 0xFE0FFFFF#32
      else 0xFE000000#32
    v &&& mask = w &&& mask → decodeWord rdf v = decodeWord rdf w

/-- R54, R55: every well-formed instruction is what its word decodes to, with every operand at every value
its field admits, from the word and from its bytes. The encoder is the assembler of R63 (D14). -/
def Obligations.DecodeUndoesEncode : Prop :=
  ∀ (rdf : RdField) (i : Instr), i.wf rdf = true →
    decodeWord rdf (encode rdf i) = some i ∧
    ∀ rest, decodeBytes rdf (bytesOf (encode rdf i) ++ rest) = .ok i

/-- R54, R57: what decodes is well-formed, and encoding it again gives the word with its unused bits and its
ignored fields at 0, as the assembler of R63 (D14) sets them, and every other bit as it was. -/
def Obligations.EncodeUndoesDecode : Prop :=
  ∀ (rdf : RdField) (w : Word) (i : Instr), decodeWord rdf w = some i →
    i.wf rdf = true ∧ encode rdf i = w &&&
      match i, rdf with
      | .add _ _, .bits8to11 => 0xFEEF8000#32
      | .add _ _, .bits7to12 => 0xFFFF8000#32
      | .sub _ _, .bits8to11 => 0xFEEF8000#32
      | .sub _ _, .bits7to12 => 0xFFFF8000#32
      | .load _ _ _, .bits8to11 => 0xFEEF83FF#32
      | .load _ _ _, .bits7to12 => 0xFFFF83FF#32
      | .store _ _ _, _ => 0xFE0FFFFF#32
      | .brk, _ => 0xFE000000#32

/-- Words of 95_test_vectors.md decode to what they stand for: the assembler's words of V-ENC-2, the BREAK
with every other bit set of V-ENC-4 and V-SYS-2, the unknown opcode 115 of V-ENC-3, and the alternative rd
range of V-ENC-5. -/
def Obligations.WrittenWordsDecode : Prop :=
  decodeWord .bits8to11 0x66228000#32 = some (.add 1 5) ∧
  decodeWord .bits8to11 0x60808000#32 = some (.sub 4 1) ∧
  decodeWord .bits8to11 0x06A20001#32 = some (.load 5 4 1) ∧
  decodeWord .bits8to11 0x46000C0C#32 = some (.store 0 3 12) ∧
  decodeWord .bits8to11 0x01FFFFFF#32 = some .brk ∧
  decodeWord .bits8to11 0xE6000000#32 = none ∧
  decodeWord .bits7to12 0x66228000#32 = some (.add 2 5)

/-- R30, R46, and R31, which the spec derives from R30: an instruction is its four bytes, little-endian: the
opcode field is bits 7 to 1 of the byte at the highest address, and fewer than four bytes are no
instruction. -/
def Obligations.OpcodeLiesInTheHighestByte : Prop :=
  ∀ (rdf : RdField) (b0 b1 b2 b3 : Byte) (rest : List Byte),
    opfOf (wordOfBytes b0 b1 b2 b3) = b3.extractLsb' 1 7 ∧
    (wordOfBytes b0 b1 b2 b3).toNat =
      b0.toNat + 2 ^ 8 * b1.toNat + 2 ^ 16 * b2.toNat + 2 ^ 24 * b3.toNat ∧
    (∀ i, decodeBytes rdf (b0 :: b1 :: b2 :: b3 :: rest) = .ok i ↔
      decodeWord rdf (wordOfBytes b0 b1 b2 b3) = some i) ∧
    ∀ bs : List Byte, bs.length < 4 → ∀ i, decodeBytes rdf bs ≠ .ok i

/-! ## Memory -/

/-- R10, R30, and R32, which the spec derives from R30: a word write puts the four bytes of the value at a
to a+3, least significant first, and leaves every other byte; a word read is made of the four bytes it
covers. So overlapping accesses share the bytes where they overlap. -/
def Obligations.WordAccessesAreTheirBytes : Prop :=
  ∀ (m : Memory) (a : Nat) (v : Word),
    (∀ k, k < 4 → (memWrite m a v).read (a + k) = v.extractLsb' (8 * k) 8) ∧
    (∀ c, c < a ∨ a + 4 ≤ c → (memWrite m a v).read c = m.read c) ∧
    ∀ k, k < 4 → (memRead m a).extractLsb' (8 * k) 8 = m.read (a + k)

/-! ## ADD and SUB -/

/-- R74, R75, R76: ADD and SUB complete in every state, for every destination and number. The result is the
true sum or difference modulo 2^32. Nothing but the destination register changes: no flag exists to change
(R25), and no byte of memory. -/
def Obligations.AddAndSubResultAndFrame : Prop :=
  ∀ (rd : RegIdx) (n : BitVec 5) (s : State),
    (∃ t, exec (.add rd n) s = .next t ∧
      ((t.reg rd).toNat : Int) = ((s.reg rd).toNat + n.toNat : Int) % 2 ^ 32 ∧
      (∀ j, j ≠ rd → t.reg j = s.reg j) ∧ SameControl s t ∧ SameMemory s t) ∧
    ∃ t, exec (.sub rd n) s = .next t ∧
      ((t.reg rd).toNat : Int) = ((s.reg rd).toNat - n.toNat : Int) % 2 ^ 32 ∧
      (∀ j, j ≠ rd → t.reg j = s.reg j) ∧ SameControl s t ∧ SameMemory s t

/-- R74 on the instruction word: a step that fetches a word with `w[31:25] = 0110011`. -/
def Obligations.AddWordAddsItsNumber : Prop :=
  ∀ (s : State) (w : Word), s.Fetches w → opcodeBits w = 0b0110011#7 →
    ∃ t, step s = .next t ∧
      (∀ j : RegIdx, ((t.reg j).toNat : Int) =
        if j.val = destBits s.cfg.rdField w
        then ((s.reg j).toNat + (w.extractLsb' 15 5).toNat : Int) % 2 ^ 32
        else ((s.reg j).toNat : Int)) ∧
      t.opc = .add ∧ Advanced s t ∧ t.fault = s.fault ∧ t.cfg = s.cfg ∧ SameMemory s t

/-- R75 on the instruction word: a step that fetches a word with `w[31:25] = 0110000`. -/
def Obligations.SubWordSubtractsItsNumber : Prop :=
  ∀ (s : State) (w : Word), s.Fetches w → opcodeBits w = 0b0110000#7 →
    ∃ t, step s = .next t ∧
      (∀ j : RegIdx, ((t.reg j).toNat : Int) =
        if j.val = destBits s.cfg.rdField w
        then ((s.reg j).toNat - (w.extractLsb' 15 5).toNat : Int) % 2 ^ 32
        else ((s.reg j).toNat : Int)) ∧
      t.opc = .sub ∧ Advanced s t ∧ t.fault = s.fault ∧ t.cfg = s.cfg ∧ SameMemory s t

/-- R59, R77: no register is read for the second operand of ADD and SUB. Whatever value any register but the
destination is given beforehand, the register the rs1 field would name among them, the step leaves the same
in the destination: its old value plus or minus the field's own number. -/
def Obligations.AluOperandIsTheFieldNumber : Prop :=
  ∀ (s : State) (w : Word) (rd j : RegIdx) (v : Word), s.Fetches w →
    rd.val = destBits s.cfg.rdField w → j ≠ rd →
    (opcodeBits w = 0x33#7 → ∃ t u, step s = .next t ∧ step (s.setReg j v) = .next u ∧
      t.reg rd = s.reg rd + (w.extractLsb' 15 5).setWidth 32 ∧ u.reg rd = t.reg rd ∧ u.reg j = v) ∧
    (opcodeBits w = 0x30#7 → ∃ t u, step s = .next t ∧ step (s.setReg j v) = .next u ∧
      t.reg rd = s.reg rd - (w.extractLsb' 15 5).setWidth 32 ∧ u.reg rd = t.reg rd ∧ u.reg j = v)

/-- A consequence of R74 to R76: SUB of a number undoes ADD of it, wrapped or not, and ADD moves a register
up and SUB moves it down by at most 31, modulo 2^32. -/
def Obligations.SubUndoesAdd : Prop :=
  ∀ (rd : RegIdx) (n : BitVec 5) (s : State),
    ∃ t u v, exec (.add rd n) s = .next t ∧ exec (.sub rd n) t = .next u ∧ u = s ∧
      exec (.sub rd n) s = .next v ∧
      ((t.reg rd).toNat - (s.reg rd).toNat : Int) % 2 ^ 32 ≤ 31 ∧
      ((s.reg rd).toNat - (v.reg rd).toNat : Int) % 2 ^ 32 ≤ 31

/-- R14: no register is hard-wired, x0 least of all. ADD, SUB and LOAD with destination x0 change it, and
what they left in it is what a later STORE stores and a later LOAD or STORE takes as its base. That the base
is read as a two's-complement integer is R79 with R9, which the spec marks as general knowledge (G1), and D3
(notes/assumptions/5.md). -/
def Obligations.RegisterZeroIsOrdinary : Prop :=
  ∀ (s : State) (i : Instr) (t : State), s.run = .running →
    exec i s = .next t → t.run = .running →
    (∀ n, i = .add 0 n → t.reg 0 = s.reg 0 + n.setWidth 32) ∧
    (∀ n, i = .sub 0 n → t.reg 0 = s.reg 0 - n.setWidth 32) ∧
    (∀ rs1 imm, i = .load 0 rs1 imm →
      t.reg 0 = memRead s.mem (effectiveAddress s rs1 imm).toNat) ∧
    (∀ (j : RegIdx) (v : Word), (s.setReg j v).reg j = v) ∧
    (∀ imm, effectiveAddress t 0 imm = (t.reg 0).toInt + offset t.cfg.immExt imm) ∧
    ∀ (rs1 : RegIdx) (imm : BitVec 10), InBounds t (effectiveAddress t rs1 imm) →
      ∃ u, exec (.store rs1 0 imm) t = .next u ∧
        memRead u.mem (effectiveAddress t rs1 imm).toNat = t.reg 0

/-! ## LOAD and STORE -/

/-- R78, R79, R58 (D2, D3): the address is the base read as signed plus the offset, in the integers. Two's
complement is the spec's own reading, marked as general knowledge (R9, G1; notes/assumptions/5.md). The
offset is 0 to 1023 zero-extended and -512 to 511 sign-extended, the two agree below 512, and a sum that no
signed 32-bit integer holds is out of bounds under every reading. -/
def Obligations.AddressIsComputedInTheIntegers : Prop :=
  ∀ (s : State) (rs1 : RegIdx) (imm : BitVec 10),
    effectiveAddress s rs1 imm = (s.reg rs1).toInt + offset s.cfg.immExt imm ∧
    offset .zero imm = imm.toNat ∧ offset .sign imm = imm.toInt ∧
    (0 ≤ offset .zero imm ∧ offset .zero imm ≤ 1023) ∧
    (-512 ≤ offset .sign imm ∧ offset .sign imm ≤ 511) ∧
    (imm.toNat < 512 → offset .zero imm = offset .sign imm) ∧
    (effectiveAddress s rs1 imm < -2 ^ 31 ∨ 2 ^ 31 ≤ effectiveAddress s rs1 imm →
      ¬InBounds s (effectiveAddress s rs1 imm) ∧
      ¬InBounds s ((effectiveAddress s rs1 imm).bmod (2 ^ 32)))

/-- R80, R38, R34 (D4): LOAD in bounds completes at every address, aligned or not, with any registers, rd =
rs1 too. The destination holds the four bytes at the address, little-endian; nothing else changes. The
address is that of R79 with R58 and R9 (D2, D3, G1; notes/assumptions/3.md, 5.md). -/
def Obligations.LoadResultAndFrame : Prop :=
  ∀ (rd rs1 : RegIdx) (imm : BitVec 10) (s : State),
    0 ≤ effectiveAddress s rs1 imm → effectiveAddress s rs1 imm + 4 ≤ s.memSize →
    ∃ t, exec (.load rd rs1 imm) s = .next t ∧
      (∀ k, k < 4 → (t.reg rd).extractLsb' (8 * k) 8 =
        s.mem.read ((effectiveAddress s rs1 imm).toNat + k)) ∧
      (∀ j, j ≠ rd → t.reg j = s.reg j) ∧ SameControl s t ∧ SameMemory s t

/-- R81, R38, R34 (D4): STORE in bounds completes at every address, aligned or not, with any registers, rs1
= rs2 too. The four bytes at the address hold the stored register, little-endian; every other byte, every
register and everything else is unchanged. The address is that of R79 with R58 and R9 (D2, D3, G1;
notes/assumptions/3.md, 5.md). -/
def Obligations.StoreResultAndFrame : Prop :=
  ∀ (rs1 rs2 : RegIdx) (imm : BitVec 10) (s : State),
    0 ≤ effectiveAddress s rs1 imm → effectiveAddress s rs1 imm + 4 ≤ s.memSize →
    ∃ t, exec (.store rs1 rs2 imm) s = .next t ∧
      (∀ k, k < 4 → t.mem.read ((effectiveAddress s rs1 imm).toNat + k) =
        (s.reg rs2).extractLsb' (8 * k) 8) ∧
      (∀ a : Nat, (a : Int) < effectiveAddress s rs1 imm ∨ effectiveAddress s rs1 imm + 4 ≤ a →
        t.mem.read a = s.mem.read a) ∧
      SameRegisters s t ∧ SameControl s t

/-- R79, R36, R86: LOAD and STORE out of bounds, the last byte counted, raise OutOfBoundsAccess and move no
byte. That a straddling access moves no byte is the spec's decision D5; only the kind of the fault is stated
(I13). The address is that of R79 with R58 and R9 (D2, D3, G1; notes/assumptions/3.md, 5.md). -/
def Obligations.AccessOutOfBoundsFaultsAndMovesNothing : Prop :=
  ∀ (i : Instr) (rs1 : RegIdx) (imm : BitVec 10) (s : State),
    (∃ rd, i = .load rd rs1 imm) ∨ (∃ rs2, i = .store rs1 rs2 imm) →
    effectiveAddress s rs1 imm < 0 ∨ (s.memSize : Int) < effectiveAddress s rs1 imm + 4 →
    ∃ t, exec i s = .next t ∧ t.HasAccessFault ∧ FaultedOnly s t ∧ t.opc = s.opc

/-- R80 on the instruction word: a step that fetches a word with `w[31:25] = 0000011`. In bounds the
destination gets the word at the address; out of bounds the step faults with `opc` = LOAD (D5, D6). The
address is that of R79 with R58 and R9 (D2, D3, G1; notes/assumptions/3.md, 5.md). -/
def Obligations.LoadWordLoads : Prop :=
  ∀ (s : State) (w : Word), s.Fetches w → opcodeBits w = 0b0000011#7 →
    (0 ≤ addressBits s w ∧ addressBits s w + 4 ≤ s.memSize →
      ∃ t, step s = .next t ∧
        (∀ j : RegIdx, t.reg j = if j.val = destBits s.cfg.rdField w
          then memRead s.mem (addressBits s w).toNat else s.reg j) ∧
        t.opc = .load ∧ Advanced s t ∧ t.fault = s.fault ∧ t.cfg = s.cfg ∧ SameMemory s t) ∧
    (addressBits s w < 0 ∨ (s.memSize : Int) < addressBits s w + 4 →
      ∃ t, step s = .next t ∧ t.HasAccessFault ∧ FaultedOnly s t ∧ t.opc = .load)

/-- R81 on the instruction word: a step that fetches a word with `w[31:25] = 0100011`. In bounds the four
bytes at the address get the register; out of bounds the step faults with `opc` = STORE (D5, D6). The word
was fetched before the store, so a store over its own slot does not change what it does (R41). The address
is that of R79 with R58 and R9 (D2, D3, G1; notes/assumptions/3.md, 5.md). -/
def Obligations.StoreWordStores : Prop :=
  ∀ (s : State) (w : Word), s.Fetches w → opcodeBits w = 0b0100011#7 →
    (0 ≤ addressBits s w ∧ addressBits s w + 4 ≤ s.memSize →
      ∃ t, step s = .next t ∧
        (∀ a : Nat, t.mem.read a =
          if (a : Int) < addressBits s w ∨ addressBits s w + 4 ≤ a then s.mem.read a
          else (s.reg (sourceBits w 10)).extractLsb' (8 * (a - (addressBits s w).toNat)) 8) ∧
        SameRegisters s t ∧ t.opc = .store ∧ Advanced s t ∧ t.fault = s.fault ∧ t.cfg = s.cfg) ∧
    (addressBits s w < 0 ∨ (s.memSize : Int) < addressBits s w + 4 →
      ∃ t, step s = .next t ∧ t.HasAccessFault ∧ FaultedOnly s t ∧ t.opc = .store)

/-- R82, which the spec derives from R80 and R81: a LOAD from where a STORE wrote returns what was stored,
whatever happened in between, as long as the four bytes there still read as the STORE left them. -/
def Obligations.LoadReturnsWhatStoreWrote : Prop :=
  ∀ (s t u : State) (rs1 rs2 rd rs1' : RegIdx) (imm imm' : BitVec 10),
    InBounds s (effectiveAddress s rs1 imm) → exec (.store rs1 rs2 imm) s = .next t →
    u.cfg = s.cfg → effectiveAddress u rs1' imm' = effectiveAddress s rs1 imm →
    (∀ k, k < 4 → u.mem.read ((effectiveAddress s rs1 imm).toNat + k) =
      t.mem.read ((effectiveAddress s rs1 imm).toNat + k)) →
    ∃ v, exec (.load rd rs1' imm') u = .next v ∧ v.reg rd = s.reg rs2

/-! ## BREAK -/

/-- R83: BREAK completes in every state: it halts, and changes nothing but the run state. -/
def Obligations.BreakHaltsAndChangesNothingElse : Prop :=
  ∀ s : State, ∃ t, exec .brk s = .next t ∧ t.run = .halted ∧ t.pc = s.pc ∧ t.opc = s.opc ∧
    t.fault = s.fault ∧ t.cfg = s.cfg ∧ SameRegisters s t ∧ SameMemory s t

/-- R83 on the instruction word: a step that fetches a word with `w[31:25] = 0000000`, whatever its low 25
bits, halts with `opc` = BREAK and `pc` at the BREAK itself, and no step follows. -/
def Obligations.BreakWordHalts : Prop :=
  ∀ (s : State) (w : Word), s.Fetches w → opcodeBits w = 0b0000000#7 →
    ∃ t, step s = .next t ∧ t.run = .halted ∧ t.opc = .brk ∧ t.pc = s.pc ∧ t.fault = s.fault ∧
      t.cfg = s.cfg ∧ SameRegisters s t ∧ SameMemory s t ∧ ∀ u, step t ≠ .next u

/-- R84, which the spec derives from R83, R61 and R26: execution that reaches four bytes nothing has written
since reset halts there. -/
def Obligations.UntouchedMemoryHalts : Prop :=
  ∀ s : State, s.run = .running → s.pc.toNat + 4 ≤ s.memSize →
    (∀ k, k < 4 → s.mem.read (s.pc.toNat + k) = 0) →
    ∃ t, step s = .next t ∧ t.run = .halted ∧ t.opc = .brk ∧ t.pc = s.pc

/-! ## The engine -/

/-- R64: when the bytes at `pc` decode to an instruction, the step is that instruction's meaning on the
state with `opc` written, and after it, if CORE is still running, the advance of `pc` by 4 with the halt
test; a stop of the meaning would be the step's. -/
def Obligations.StepRunsTheDecodedInstruction : Prop :=
  ∀ (s : State) (i : Instr) (rest : List Byte), s.run = .running →
    s.pc.toNat + 4 ≤ s.memSize →
    decodeBytes s.cfg.rdField (s.mem.read s.pc.toNat :: s.mem.read (s.pc.toNat + 1) ::
      s.mem.read (s.pc.toNat + 2) :: s.mem.read (s.pc.toNat + 3) :: rest) = .ok i →
    step s = match exec i { s with opc := i.opcode } with
      | .next t =>
        .next (if t.run = .running then
          { t with pc := t.pc + 4,
                   run := if t.memSize ≤ (t.pc + 4).toNat then .halted else .running }
          else t)
      | .fault f => .fault f
      | .refused r => .refused r

/-- R65, by the host's two entry points to one instruction: a word the host places where the step fetches is
the instruction the very next step runs. `withFetchWord` and `decodeTableWord` are the model's own
(notes/assumptions/8.md). -/
def Obligations.PlacedWordRunsNext : Prop :=
  ∀ (s : State) (w : Nat) (i : Instr), w < 2 ^ 32 → s.run = .running →
    s.pc.toNat + 4 ≤ s.memSize → s.cfg.rdField = .bits8to11 → decodeTableWord 32 w = some i →
    (s.withFetchWord 32 w).Fetches (BitVec.ofNat 32 w) ∧
    step (s.withFetchWord 32 w) = endStep (exec i (latch i (s.withFetchWord 32 w))) ∧
    SameControl s (s.withFetchWord 32 w) ∧ SameRegisters s (s.withFetchWord 32 w) ∧
    ∀ a, a < s.pc.toNat ∨ s.pc.toNat + 4 ≤ a → (s.withFetchWord 32 w).mem.read a = s.mem.read a

/-- R65: the fetch reads the word at `pc` from memory as it stands at the start of the step; with fewer than
four bytes left the step raises OutOfBoundsAccess of `pc` (FAULTED is D6, the payload D7) and changes
nothing else. In a legal state that happens only when MEM_SIZE is no multiple of 4 and `pc` is its last
multiple of 4. -/
def Obligations.FetchFaultsAtAPartialSlot : Prop :=
  ∀ s : State,
    (s.pc.toNat + 4 ≤ s.memSize → fetch s = some (memRead s.mem s.pc.toNat)) ∧
    (s.run = .running → s.memSize < s.pc.toNat + 4 →
      ∃ t, step s = .next t ∧ t.fault = some (.outOfBoundsAccess s.pc.toNat) ∧
        FaultedOnly s t ∧ t.opc = s.opc) ∧
    (s.Inv → s.run = .running → s.memSize < s.pc.toNat + 4 →
      s.memSize % 4 ≠ 0 ∧ s.pc.toNat = 4 * (s.memSize / 4))

/-- R66 (FAULTED is D6): a failed decode changes nothing but the fault record and the run state, `opc` with
the rest; a successful one writes the variant to `opc`, and there it stays, also when stage 4 faults. -/
def Obligations.DecodeWritesTheOpcodeRegister : Prop :=
  ∀ (s : State) (w : Word), s.Fetches w →
    (decodeWord s.cfg.rdField w = none →
      ∃ t, step s = .next t ∧ t.HasOpcodeFault ∧ FaultedOnly s t ∧ t.opc = s.opc) ∧
    ∀ i, decodeWord s.cfg.rdField w = some i → ∃ t, step s = .next t ∧ t.opc = i.opcode

/-- R68, R71: a step that raises no fault and is no BREAK advances `pc` by exactly 4; BREAK and every fault
leave it. Nothing else moves it. -/
def Obligations.ProgramCounterMovesOnlyByFour : Prop :=
  ∀ s t : State, step s = .next t →
    (t.run = .faulted → t.pc = s.pc) ∧
    (t.run ≠ .faulted → opcodeBits (memRead s.mem s.pc.toNat) = 0 → t.pc = s.pc) ∧
    (t.run ≠ .faulted → opcodeBits (memRead s.mem s.pc.toNat) ≠ 0 →
      t.pc.toNat = s.pc.toNat + 4)

/-- R69: the halt on leaving memory is in the same step as the advance that leaves it, and is no fault: the
fault record is what it was. A step that advances inside memory leaves CORE RUNNING. -/
def Obligations.LeavingMemoryHaltsInTheSameStep : Prop :=
  ∀ s t : State, step s = .next t → t.pc.toNat = s.pc.toNat + 4 →
    t.fault = s.fault ∧ (t.run = .halted ↔ s.memSize ≤ t.pc.toNat) ∧
    (t.run = .running ↔ t.pc.toNat < s.memSize)

/-- R64, R22: a step is enabled exactly when `run` is RUNNING. A stopped core's step is a stop, and a
running core's step always has a next state: nothing is refused (R96). That the stop is a fault of the
interface, and its two names, are the model's choice (notes/assumptions/9.md). -/
def Obligations.StepIsEnabledExactlyWhenRunning : Prop :=
  ∀ s : State, ((∃ t, step s = .next t) ↔ s.run = .running) ∧
    (s.run = .halted → step s = .fault .coreHalted) ∧
    (s.run = .faulted → step s = .fault .coreFaulted)

/-- R22, R86 (FAULTED is D6), and R92, which the spec derives: only these events stop a running core. It
becomes HALTED exactly by a BREAK, or by a step with no fault that leaves memory; it becomes FAULTED exactly
by a fetch out of bounds, else by an unknown opcode, else by a LOAD or STORE out of bounds, in that order.
The address is that of R79 with R58 and R9 (D2, D3, G1; notes/assumptions/3.md, 5.md). -/
def Obligations.OnlyTheseEventsStopTheCore : Prop :=
  ∀ s t : State, step s = .next t →
    let w := memRead s.mem s.pc.toNat
    let access := opcodeBits w = 0x03#7 ∨ opcodeBits w = 0x23#7
    let outside := addressBits s w < 0 ∨ (s.memSize : Int) < addressBits s w + 4
    (t.run = .halted ↔
      s.pc.toNat + 4 ≤ s.memSize ∧
      (opcodeBits w = 0 ∨
        (opcodeBits w ∈ [0x03#7, 0x23#7, 0x30#7, 0x33#7] ∧ ¬(access ∧ outside) ∧
          s.memSize ≤ s.pc.toNat + 4))) ∧
    (t.run = .faulted ↔
      s.memSize < s.pc.toNat + 4 ∨
      opcodeBits w ∉ [0x00#7, 0x03#7, 0x23#7, 0x30#7, 0x33#7] ∨ (access ∧ outside)) ∧
    (t.run = .faulted →
      if s.memSize < s.pc.toNat + 4 then t.HasAccessFault
      else if opcodeBits w ∉ [0x00#7, 0x03#7, 0x23#7, 0x30#7, 0x33#7] then t.HasOpcodeFault
      else t.HasAccessFault)

/-- R88 (D5, D6), and R89, which the spec derives from it: faults are precise. A step that ends FAULTED has
written the fault record and the run state and nothing else, but perhaps `opc`. -/
def Obligations.FaultsArePrecise : Prop :=
  ∀ s t : State, step s = .next t → t.run = .faulted →
    (∃ f, t.fault = some f) ∧ FaultedOnly s t ∧
    (t.opc ≠ s.opc → ∃ w i, s.Fetches w ∧ decodeWord s.cfg.rdField w = some i ∧ t.opc = i.opcode)

/-- R15, R67: one step changes at most the register that the rd field of an ADD, SUB or LOAD names. Every
other register keeps its value, and so do all of them in any other step. -/
def Obligations.OnlyTheDestinationRegisterChanges : Prop :=
  ∀ (s t : State) (j : RegIdx), step s = .next t → t.reg j ≠ s.reg j →
    t.run ≠ .faulted ∧
    opcodeBits (memRead s.mem s.pc.toNat) ∈ [0x33#7, 0x30#7, 0x03#7] ∧
    j.val = destBits s.cfg.rdField (memRead s.mem s.pc.toNat) ∧ j.val < s.cfg.rdField.count

/-- R38, R42, R67: a byte of memory changes only in a step that runs a STORE without a fault, only inside
the four bytes at its effective address, which lie in memory. The address is that of R79 with R58 and R9
(D2, D3, G1; notes/assumptions/3.md, 5.md). -/
def Obligations.OnlyAStoreChangesMemory : Prop :=
  ∀ (s t : State) (a : Nat), step s = .next t → t.mem.read a ≠ s.mem.read a →
    t.run ≠ .faulted ∧ opcodeBits (memRead s.mem s.pc.toNat) = 0x23#7 ∧
    addressBits s (memRead s.mem s.pc.toNat) ≤ a ∧
    (a : Int) < addressBits s (memRead s.mem s.pc.toNat) + 4 ∧ a < s.memSize

/-- R21: `opc` is never IDLE again after a successful decode: a step never turns it into IDLE, and leaves it
IDLE only by a fault of fetch or decode. -/
def Obligations.OpcodeRegisterNeverReturnsToIdle : Prop :=
  ∀ s t : State, step s = .next t → t.opc = .idle →
    s.opc = .idle ∧ t.run = .faulted ∧
    ∀ w i, s.Fetches w → decodeWord s.cfg.rdField w ≠ some i

/-- R24, R21: no instruction reads `opc` or the fault record. Whatever they hold beforehand, the step ends
with the same registers, memory, program counter and run state, and, after a successful decode, the same
`opc`. -/
def Obligations.NoInstructionReadsOpcOrFault : Prop :=
  ∀ (s t : State) (k : Opcode) (f : Option FaultInfo), step s = .next t →
    ∃ u, step { s with opc := k, fault := f } = .next u ∧
      u.regs = t.regs ∧ u.mem = t.mem ∧ u.pc = t.pc ∧ u.run = t.run ∧ u.cfg = t.cfg ∧
      (u.run = .faulted → u.fault = t.fault) ∧ (u.run ≠ .faulted → u.fault = f ∧ t.fault = s.fault) ∧
      ((∃ w i, s.Fetches w ∧ decodeWord s.cfg.rdField w = some i) → u.opc = t.opc)

/-- R6: the configuration is fixed for the machine: no step and no move of the host changes it. That it
stands in State is the model's choice (notes/assumptions/1.md). -/
def Obligations.ConfigurationNeverChanges : Prop :=
  (∀ s t : State, step s = .next t → t.cfg = s.cfg) ∧
  (∀ s : State, (runToEnd s).cfg = s.cfg) ∧
  ∀ (words : List Word) (s : State), (loadWords words s).cfg = s.cfg

/-- R114, and R41, which the spec derives from R65: a STORE into the next slot is seen by the next fetch
with no fence: the step after it runs the stored word. The address is that of R79 with R58 and R9 (D2, D3,
G1; notes/assumptions/3.md, 5.md). -/
def Obligations.StoredWordRunsInTheNextSlot : Prop :=
  ∀ (s : State) (w : Word), s.Fetches w → opcodeBits w = 0x23#7 →
    addressBits s w = s.pc.toNat + 4 → s.pc.toNat + 8 ≤ s.memSize →
    ∃ t, step s = .next t ∧ t.Fetches (s.reg (sourceBits w 10)) ∧
      ∀ i, decodeWord s.cfg.rdField (s.reg (sourceBits w 10)) = some i →
        step t = endStep (exec i (latch i t))

/-! ## The invariant -/

/-- R22, R26, and R16, R19, R20, R72 and R93, which the spec derives: every step keeps the invariant of
CORE: the fault record is there exactly in FAULTED (D6); `pc` is a multiple of 4, at most MEM_SIZE + 3, and
in memory while a step is enabled; memory is canonical and lists no address outside MEM_SIZE; the registers
the rd field cannot name hold 0. That the memory of CORE is kept as a list in canonical form is the model's
choice and no rule of the spec (DESIGN CHOICE, notes/assumptions/13.md). -/
def Obligations.EveryStepKeepsTheInvariant : Prop :=
  ∀ s t : State, s.Inv → step s = .next t → t.Inv

/-- R103, R104, R70 (D9): the invariant holds once the host has started the core, whatever it loaded, in
every configuration; and in the reference configuration it holds right after reset. That the memory of CORE
is kept as a list in canonical form is the model's choice and no rule of the spec (DESIGN CHOICE,
notes/assumptions/13.md). -/
def Obligations.StartedCoreMeetsTheInvariant : Prop :=
  State.reset.Inv ∧
  ∀ (cfg : Config) (words : List Word),
    (runEntry (State.resetWith cfg)).Inv ∧
    (runEntry (loadWords words (State.resetWith cfg))).Inv

/-- R16 and R35, which the spec derives from R15 and R19: at every step of a run from a legal state `pc` is
a multiple of 4, so a fetch is a whole slot, memory is canonical, and a base or stored register that no rd
field can name reads 0. The clauses on `pc` and memory hold under both readings of RD_FIELD; under [7,12)
the rd field can name every register. The clause that memory is canonical is the model's choice and no rule
of the spec (DESIGN CHOICE, notes/assumptions/13.md). -/
def Obligations.UnreachableRegistersReadZeroAllRun : Prop :=
  ∀ (s t : State) (k : Nat), s.Inv → Host.Core.run Sys2Proof.core k s = .next t →
    t.pc.toNat % 4 = 0 ∧ t.mem.wf ∧ ∀ i : RegIdx, s.cfg.rdField.count ≤ i.val → t.reg i = 0
end

