-- ==== Sys2Proof/Laws/Decode.lean ====
section
/-! SUPPORT. The extractor's slices by conventional bit numbers, and the fields of an encoded word. -/

namespace Sys2Proof

/-- R8: `field(w, s, e)` is the bits 31-s down to 32-e of the word. -/
theorem field_eq_extractLsb' (w : Word) (s e : Nat) (h : s ≤ e ∧ e ≤ 32) :
    field w s e h = (w.extractLsb' (32 - e) (e - s)).toNat := by
  simp [field, Nat.and_two_pow_sub_one_eq_mod, BitVec.extractLsb'_toNat]

theorem ofNat_field (w : Word) (s e : Nat) (h : s ≤ e ∧ e ≤ 32) :
    BitVec.ofNat (e - s) (field w s e h) = w.extractLsb' (32 - e) (e - s) := by
  rw [field_eq_extractLsb', BitVec.ofNat_toNat, BitVec.setWidth_eq]

theorem opfOf_eq (w : Word) : opfOf w = w.extractLsb' 25 7 := ofNat_field w 0 7 (by decide)

theorem rs1Of_eq (w : Word) : rs1Of w = w.extractLsb' 15 5 := ofNat_field w 12 17 (by decide)

theorem rs2Of_eq (w : Word) : rs2Of w = w.extractLsb' 10 5 := ofNat_field w 17 22 (by decide)

theorem immOf_eq (w : Word) : immOf w = w.extractLsb' 0 10 := ofNat_field w 22 32 (by decide)

theorem regOf_val (b : BitVec 5) : (regOf b).val = b.toNat := rfl

theorem rdOf_bits8to11 (w : Word) : (rdOf .bits8to11 w).val = (w.extractLsb' 21 3).toNat := by
  have h := BitVec.isLt (w.extractLsb' 21 3)
  simp only [rdOf, regOf_val, field_eq_extractLsb', BitVec.toNat_ofNat]
  exact Nat.mod_eq_of_lt (by omega)

theorem rdOf_bits7to12 (w : Word) : (rdOf .bits7to12 w).val = (w.extractLsb' 20 5).toNat := by
  have h := BitVec.isLt (w.extractLsb' 20 5)
  simp only [rdOf, regOf_val, field_eq_extractLsb', BitVec.toNat_ofNat]
  exact Nat.mod_eq_of_lt h

/-- The rd field names only the registers RD_FIELD can reach (R50). -/
theorem rdOf_lt (rdf : RdField) (w : Word) : (rdOf rdf w).val < rdf.count := by
  cases rdf with
  | bits8to11 =>
    rw [rdOf_bits8to11]
    exact BitVec.isLt (w.extractLsb' 21 3)
  | bits7to12 => exact (rdOf .bits7to12 w).isLt

/-- The opcode field of a packed word is the opcode put in, when rd lies below it. -/
theorem opfOf_pack (opf : BitVec 7) (rd : Word) (rs1 rs2 : BitVec 5) (imm : BitVec 10)
    (h : rd.toNat < 2 ^ 25) : opfOf (pack opf rd rs1 rs2 imm) = opf := by
  rw [opfOf_eq]
  have hz : ∀ j, 25 ≤ j → rd.getLsbD j = false := fun j hj =>
    Nat.testBit_lt_two_pow (Nat.lt_of_lt_of_le h (Nat.pow_le_pow_right (by decide) hj))
  ext i hi
  simp only [pack, BitVec.getElem_extractLsb', BitVec.getLsbD_or, BitVec.getLsbD_shiftLeft,
    BitVec.getLsbD_setWidth, hz (25 + i) (by omega)]
  interval_cases i <;> simp [BitVec.getLsbD_eq_getElem]

theorem placeRd_lt (rdf : RdField) (rd : RegIdx) (h : rd.val < rdf.count) :
    (placeRd rdf rd).toNat < 2 ^ 25 := by
  cases rdf <;> simp only [RdField.count] at h <;>
    simp only [placeRd, BitVec.toNat_shiftLeft, BitVec.toNat_ofNat, Nat.shiftLeft_eq] <;> omega

/-- The rd field put in its place lies in bits 20 to 24. -/
theorem placeRd_bits (rdf : RdField) (rd : RegIdx) (h : rd.val < rdf.count) :
    (∀ j, j < 20 → (placeRd rdf rd).getLsbD j = false) ∧
    ∀ j, 25 ≤ j → (placeRd rdf rd).getLsbD j = false := by
  refine ⟨fun j hj => ?_, fun j hj => Nat.testBit_lt_two_pow
    (Nat.lt_of_lt_of_le (placeRd_lt rdf rd h) (Nat.pow_le_pow_right (by decide) hj))⟩
  cases rdf <;> simp [placeRd, BitVec.getLsbD_shiftLeft] <;> omega

/-- The fields of a packed word below the opcode are the ones put in, when rd lies in bits 20 to 24. -/
theorem pack_slices (opf : BitVec 7) (rd : Word) (rs1 rs2 : BitVec 5) (imm : BitVec 10)
    (hlo : ∀ j, j < 20 → rd.getLsbD j = false) :
    (pack opf rd rs1 rs2 imm).extractLsb' 20 5 = rd.extractLsb' 20 5 ∧
    (pack opf rd rs1 rs2 imm).extractLsb' 21 3 = rd.extractLsb' 21 3 ∧
    (pack opf rd rs1 rs2 imm).extractLsb' 15 5 = rs1 ∧
    (pack opf rd rs1 rs2 imm).extractLsb' 10 5 = rs2 ∧
    (pack opf rd rs1 rs2 imm).extractLsb' 0 10 = imm := by
  refine ⟨?_, ?_, ?_, ?_, ?_⟩ <;> ext i hi <;>
    simp only [pack, BitVec.getElem_extractLsb', BitVec.getLsbD_or, BitVec.getLsbD_shiftLeft,
      BitVec.getLsbD_setWidth]
  · interval_cases i <;> simp
  · interval_cases i <;> simp
  · rw [hlo (15 + i) (by omega)]
    interval_cases i <;> simp [BitVec.getLsbD_eq_getElem]
  · rw [hlo (10 + i) (by omega)]
    interval_cases i <;> simp [BitVec.getLsbD_eq_getElem]
  · rw [hlo (0 + i) (by omega)]
    interval_cases i <;> simp [BitVec.getLsbD_eq_getElem]

/-- A decoded instruction has an encoding: its operands come from the fields. -/
theorem decodeWord_wf {rdf : RdField} {w : Word} {i : Instr} (h : decodeWord rdf w = some i) :
    i.wf rdf = true := by
  unfold decodeWord at h
  split at h
  · cases h; simpa [Instr.wf] using rdOf_lt rdf w
  split at h
  · cases h; simpa [Instr.wf] using rdOf_lt rdf w
  split at h
  · cases h; simpa [Instr.wf] using rdOf_lt rdf w
  split at h
  · cases h; rfl
  split at h
  · cases h; rfl
  · cases h

end Sys2Proof
end

