-- ==== Sys2Proof/Laws/Memory.lean ====
section
/-! SUPPORT. What the memory operations do: read after write, the canonical form, and bounds. -/

namespace Sys2Proof.Machine

/-! ## One byte -/

@[simp] theorem read_nil (a : Nat) : Memory.read [] a = 0 := rfl

/-- An address no cell lists reads as the reset value. -/
theorem read_of_unlisted : ∀ {m : Memory} {a : Nat}, (∀ c ∈ m, c.1 ≠ a) → m.read a = 0
  | [], _, _ => rfl
  | (k, v) :: rest, a, h => by
    have hk : k ≠ a := h (k, v) (by simp)
    simpa [Memory.read, hk] using read_of_unlisted fun c hc => h c (by simp [hc])

theorem read_erase (a c : Nat) : ∀ m : Memory,
    Memory.read (m.filter fun x => decide (x.1 ≠ a)) c = if c = a then 0 else m.read c
  | [] => by simp
  | (k, v) :: rest => by
    have ih := read_erase a c rest
    by_cases hk : k = a
    · subst hk
      by_cases hc : c = k
      · simpa [hc, Memory.read] using ih
      · have : k ≠ c := fun h => hc h.symm
        simpa [hc, Memory.read, this] using ih
    · by_cases hkc : k = c
      · subst hkc
        simp [hk, Memory.read]
      · simpa [hk, hkc, Memory.read] using ih

theorem read_place (a c : Nat) (b : Byte) : ∀ m : Memory, (∀ x ∈ m, x.1 ≠ a) →
    Memory.read (m.place a b) c = if c = a then b else m.read c
  | [], _ => by simp [Memory.place, Memory.read, eq_comm, Memory.unlisted]
  | (k, v) :: rest, h => by
    have hk : k ≠ a := h (k, v) (by simp)
    have ih := read_place a c b rest fun x hx => h x (by simp [hx])
    by_cases hak : a < k
    · simp [Memory.place, hak, Memory.read, eq_comm]
    · by_cases hkc : k = c
      · subst hkc
        simp [Memory.place, hak, Memory.read, hk]
      · simp [Memory.place, hak, Memory.read, hkc, ih]

/-- A byte write is seen at its own address and nowhere else, in every memory. -/
@[simp] theorem read_write (m : Memory) (a c : Nat) (b : Byte) :
    (m.write a b).read c = if c = a then b else m.read c := by
  unfold Memory.write
  by_cases hb : b = Memory.unlisted
  · rw [if_pos hb, read_erase, hb]
    rfl
  · rw [if_neg hb, read_place a c b _ (by simp), read_erase]
    by_cases hc : c = a <;> simp [hc]

/-! ## The canonical form -/

theorem mem_place {a : Nat} {b : Byte} {c : Host.Cell} : ∀ {m : Memory},
    c ∈ m.place a b ↔ c = (a, b) ∨ c ∈ m
  | [] => by simp [Memory.place]
  | (k, v) :: rest => by
    by_cases h : a < k
    · simp [Memory.place, h]
    · simp [Memory.place, h, mem_place (m := rest), or_left_comm]

/-- A write lists no address but its own and those listed before. -/
theorem mem_write {m : Memory} {a : Nat} {b : Byte} {c : Host.Cell} (h : c ∈ m.write a b) :
    c = (a, b) ∨ c ∈ m := by
  unfold Memory.write at h
  split at h
  · exact .inr (List.mem_filter.mp h).1
  · rcases mem_place.mp h with h | h
    · exact .inl h
    · exact .inr (List.mem_filter.mp h).1

theorem place_sorted {a : Nat} {b : Byte} : ∀ {m : Memory},
    m.Pairwise (fun c d => c.1 < d.1) → (∀ c ∈ m, c.1 ≠ a) →
    (m.place a b).Pairwise (fun c d => c.1 < d.1)
  | [], _, _ => by simp [Memory.place]
  | (k, v) :: rest, hs, hn => by
    have hk : k ≠ a := hn (k, v) (by simp)
    obtain ⟨h1, h2⟩ := List.pairwise_cons.mp hs
    by_cases h : a < k
    · rw [Memory.place, if_pos h]
      refine List.pairwise_cons.mpr ⟨fun c hc => ?_, hs⟩
      rcases List.mem_cons.mp hc with rfl | hc
      · exact h
      · exact Nat.lt_trans h (h1 c hc)
    · rw [Memory.place, if_neg h]
      refine List.pairwise_cons.mpr ⟨fun c hc => ?_, place_sorted h2 fun c hc => hn c (by simp [hc])⟩
      rcases mem_place.mp hc with rfl | hc
      · show k < a
        omega
      · exact h1 c hc

/-- A byte write keeps the canonical form. -/
theorem write_wf {m : Memory} (h : m.wf) (a : Nat) (b : Byte) : (m.write a b).wf := by
  have hs : (m.filter fun x => decide (x.1 ≠ a)).Pairwise (fun c d => c.1 < d.1) := h.1.filter _
  refine ⟨?_, fun c hc => ?_⟩
  · unfold Memory.write
    split
    · exact hs
    · exact place_sorted hs (by simp)
  · by_cases hb : b = Memory.unlisted
    · rw [Memory.write, if_pos hb] at hc
      exact h.2 c (List.mem_filter.mp hc).1
    · rcases mem_write hc with rfl | hc
      · exact hb
      · exact h.2 c hc

/-- In a canonical memory every listed cell is what its address reads as. -/
theorem read_of_mem {k : Nat} {v : Byte} : ∀ {m : Memory},
    m.Pairwise (fun c d => c.1 < d.1) → (k, v) ∈ m → m.read k = v
  | (k', v') :: rest, hs, hm => by
    obtain ⟨h1, h2⟩ := List.pairwise_cons.mp hs
    rcases List.mem_cons.mp hm with h | h
    · cases h
      simp [Memory.read]
    · have : k' ≠ k := Nat.ne_of_lt (h1 _ h)
      simpa [Memory.read, this] using read_of_mem h2 h

/-- Equal memories are equal data: canonical memories that read the same are the same list. -/
theorem wf_ext {m m' : Memory} (h : m.wf) (h' : m'.wf) (he : ∀ a, m.read a = m'.read a) : m = m' := by
  have key : ∀ {p q : Memory}, p.wf → q.wf → (∀ a, p.read a = q.read a) → ∀ c ∈ p, c ∈ q := by
    rintro p q hp hq he ⟨k, v⟩ hc
    have hv : q.read k = v := (he k).symm.trans (read_of_mem hp.1 hc)
    by_contra hn
    have : q.read k = 0 := read_of_unlisted fun c hcq hck => by
      obtain ⟨k', v'⟩ := c
      simp only at hck
      subst hck
      exact hn (by rw [← hv, read_of_mem hq.1 hcq]; exact hcq)
    exact hp.2 _ hc (hv.symm.trans this)
  have nodup : ∀ {p : Memory}, p.wf → p.Nodup := fun hp =>
    hp.1.imp fun {c d} (hlt : c.1 < d.1) => fun (heq : c = d) => Nat.lt_irrefl d.1 (by rwa [heq] at hlt)
  refine ((List.perm_ext_iff_of_nodup (nodup h) (nodup h')).mpr fun c =>
    ⟨key h h' he c, key h' h (fun a => (he a).symm) c⟩).eq_of_pairwise ?_ h.1 h'.1
  intro c d _ _ h1 h2
  exact absurd h1 (Nat.lt_asymm h2)

/-! ## One word -/

/-- Byte `k` of the word assembled from four bytes is the `k`-th of them (R30). -/
theorem byteOf_wordOfBytes (b0 b1 b2 b3 : Byte) :
    byteOf (wordOfBytes b0 b1 b2 b3) 0 = b0 ∧ byteOf (wordOfBytes b0 b1 b2 b3) 1 = b1 ∧
    byteOf (wordOfBytes b0 b1 b2 b3) 2 = b2 ∧ byteOf (wordOfBytes b0 b1 b2 b3) 3 = b3 := by
  refine ⟨?_, ?_, ?_, ?_⟩ <;>
    (ext i hi
     simp only [byteOf, wordOfBytes, BitVec.getElem_extractLsb', BitVec.getLsbD_or,
       BitVec.getLsbD_shiftLeft, BitVec.getLsbD_setWidth]
     interval_cases i <;> simp [BitVec.getLsbD_eq_getElem])

/-- The word assembled from its own bytes is itself (R30). -/
@[simp] theorem wordOfBytes_byteOf (v : Word) :
    wordOfBytes (byteOf v 0) (byteOf v 1) (byteOf v 2) (byteOf v 3) = v := by
  ext i hi
  simp only [byteOf, wordOfBytes, BitVec.getElem_or, BitVec.getElem_shiftLeft, BitVec.getElem_setWidth,
    BitVec.getLsbD_extractLsb']
  interval_cases i <;> simp [BitVec.getLsbD_eq_getElem]

/-- A byte after a word write: the byte of the word inside the four bytes, unchanged outside (R10, R38). -/
@[simp] theorem read_memWrite (m : Memory) (a c : Nat) (v : Word) :
    (memWrite m a v).read c = if a ≤ c ∧ c < a + 4 then byteOf v (c - a) else m.read c := by
  simp only [memWrite, read_write]
  by_cases h3 : c = a + 3
  · subst h3; simp
  by_cases h2 : c = a + 2
  · subst h2; simp
  by_cases h1 : c = a + 1
  · subst h1; simp
  by_cases h0 : c = a
  · subst h0; simp
  have : ¬(a ≤ c ∧ c < a + 4) := by omega
  simp [h0, h1, h2, h3, this]

/-- Reads of the same four bytes are the same word. -/
theorem memRead_congr {m m' : Memory} {a : Nat} (h : ∀ c, a ≤ c → c < a + 4 → m.read c = m'.read c) :
    memRead m a = memRead m' a := by
  simp only [memRead]
  rw [h a (by omega) (by omega), h (a + 1) (by omega) (by omega), h (a + 2) (by omega) (by omega),
    h (a + 3) (by omega) (by omega)]

/-- A word read back from where it was written (R82). -/
@[simp] theorem memRead_memWrite_same (m : Memory) (a : Nat) (v : Word) :
    memRead (memWrite m a v) a = v := by
  simp [memRead, read_memWrite]

/-- A word read clear of a word write is unchanged (R38). -/
theorem memRead_memWrite_disjoint (m : Memory) (a c : Nat) (v : Word) (h : c + 4 ≤ a ∨ a + 4 ≤ c) :
    memRead (memWrite m a v) c = memRead m c :=
  memRead_congr fun d h1 h2 => by
    rw [read_memWrite, if_neg (by omega)]

/-- A word write keeps the canonical form. -/
theorem memWrite_wf {m : Memory} (h : m.wf) (a : Nat) (v : Word) : (memWrite m a v).wf :=
  write_wf (write_wf (write_wf (write_wf h _ _) _ _) _ _) _ _

/-- A word write lists no address outside its four bytes that was not listed before. -/
theorem mem_memWrite {m : Memory} {a : Nat} {v : Word} {c : Host.Cell} (h : c ∈ memWrite m a v) :
    (a ≤ c.1 ∧ c.1 < a + 4) ∨ c ∈ m := by
  rcases mem_write h with rfl | h
  · left; dsimp only; omega
  rcases mem_write h with rfl | h
  · left; dsimp only; omega
  rcases mem_write h with rfl | h
  · left; dsimp only; omega
  rcases mem_write h with rfl | h
  · left; dsimp only; omega
  exact .inr h

/-! ## The Loader -/

/-- The Loader keeps the canonical form. -/
theorem writeWords_wf : ∀ (ws : List Word) (k : Nat) {m : Memory}, m.wf → (writeWords ws k m).wf
  | [], _, _, h => h
  | w :: ws, k, _, h => writeWords_wf ws (k + 1) (memWrite_wf h (4 * k) w)

/-- The Loader lists no address outside the program's bytes that was not listed before. -/
theorem mem_writeWords : ∀ {ws : List Word} {k : Nat} {m : Memory} {c : Host.Cell},
    c ∈ writeWords ws k m → (4 * k ≤ c.1 ∧ c.1 < 4 * (k + ws.length)) ∨ c ∈ m
  | [], _, _, _, h => .inr h
  | w :: ws, k, m, c, h => by
    rcases mem_writeWords (ws := ws) h with h | h
    · left; simp only [List.length_cons]; omega
    · rcases mem_memWrite h with h | h
      · left; simp only [List.length_cons]; omega
      · exact .inr h

/-- A byte below the words the Loader writes, or above them, is unchanged. -/
theorem read_writeWords_outside : ∀ (ws : List Word) (k : Nat) (m : Memory) (a : Nat),
    (a < 4 * k ∨ 4 * (k + ws.length) ≤ a) → (writeWords ws k m).read a = m.read a
  | [], _, _, _, _ => rfl
  | w :: ws, k, m, a, h => by
    simp only [List.length_cons] at h
    rw [writeWords, read_writeWords_outside ws (k + 1) _ a (by omega), read_memWrite,
      if_neg (by omega)]

end Sys2Proof.Machine
end

