-- ==== Sys2Proof/Laws/PerInstr.lean ====
section
/-! SUPPORT. Statements made instruction by instruction (LAWS.json "per_instruction"). -/

/-- The encoded word of a well-formed instruction carries the opcode field that R55 gives its variant. -/
def Sys2Proof.Laws.OpcodeField.Statement (i : Sys2Proof.Instr) : Prop :=
  ∀ rdf : Sys2Proof.RdField, i.wf rdf = true → Sys2Proof.opfOf (Sys2Proof.encode rdf i) = i.opf

namespace Sys2Proof.Laws.OpcodeField

theorem add (rd : RegIdx) (n : BitVec 5) : Statement (.add rd n) := fun rdf h =>
  opfOf_pack _ _ _ _ _ (placeRd_lt rdf rd (by simpa [Instr.wf] using h))

theorem sub (rd : RegIdx) (n : BitVec 5) : Statement (.sub rd n) := fun rdf h =>
  opfOf_pack _ _ _ _ _ (placeRd_lt rdf rd (by simpa [Instr.wf] using h))

theorem load (rd rs1 : RegIdx) (imm : BitVec 10) : Statement (.load rd rs1 imm) := fun rdf h =>
  opfOf_pack _ _ _ _ _ (placeRd_lt rdf rd (by simpa [Instr.wf] using h))

theorem store (rs1 rs2 : RegIdx) (imm : BitVec 10) : Statement (.store rs1 rs2 imm) := fun _ _ =>
  opfOf_pack _ _ _ _ _ (by decide)

theorem brk : Statement .brk := fun _ _ => opfOf_pack _ _ _ _ _ (by decide)

end Sys2Proof.Laws.OpcodeField
end

