-- ==== Sys2Proof/Laws/State.lean ====
section
/-! SUPPORT. One lemma per field per update of the state, so that no proof unfolds a record update. -/

namespace Sys2Proof.Machine

/-! ## setReg -/

@[simp] theorem setReg_cfg (s : State) (i : RegIdx) (v : Word) : (s.setReg i v).cfg = s.cfg := rfl
@[simp] theorem setReg_regs (s : State) (i : RegIdx) (v : Word) : (s.setReg i v).regs = s.regs.set i.val v i.isLt := rfl
@[simp] theorem setReg_pc (s : State) (i : RegIdx) (v : Word) : (s.setReg i v).pc = s.pc := rfl
@[simp] theorem setReg_opc (s : State) (i : RegIdx) (v : Word) : (s.setReg i v).opc = s.opc := rfl
@[simp] theorem setReg_run (s : State) (i : RegIdx) (v : Word) : (s.setReg i v).run = s.run := rfl
@[simp] theorem setReg_fault (s : State) (i : RegIdx) (v : Word) : (s.setReg i v).fault = s.fault := rfl
@[simp] theorem setReg_mem (s : State) (i : RegIdx) (v : Word) : (s.setReg i v).mem = s.mem := rfl
@[simp] theorem setReg_memSize (s : State) (i : RegIdx) (v : Word) : (s.setReg i v).memSize = s.memSize := rfl
/-- A register write changes the register named and no other; x0 is no exception (R14). -/
@[simp] theorem setReg_reg (s : State) (i : RegIdx) (v : Word) (j : RegIdx) :
    (s.setReg i v).reg j = if j = i then v else s.reg j := by
  simp only [State.reg, State.setReg, Vector.getElem_set, Fin.ext_iff]
  by_cases h : i.val = j.val <;> simp [h, eq_comm]

/-! ## setMem -/

@[simp] theorem setMem_cfg (s : State) (m : Memory) : (s.setMem m).cfg = s.cfg := rfl
@[simp] theorem setMem_regs (s : State) (m : Memory) : (s.setMem m).regs = s.regs := rfl
@[simp] theorem setMem_pc (s : State) (m : Memory) : (s.setMem m).pc = s.pc := rfl
@[simp] theorem setMem_opc (s : State) (m : Memory) : (s.setMem m).opc = s.opc := rfl
@[simp] theorem setMem_run (s : State) (m : Memory) : (s.setMem m).run = s.run := rfl
@[simp] theorem setMem_fault (s : State) (m : Memory) : (s.setMem m).fault = s.fault := rfl
@[simp] theorem setMem_mem (s : State) (m : Memory) : (s.setMem m).mem = m := rfl
@[simp] theorem setMem_memSize (s : State) (m : Memory) : (s.setMem m).memSize = s.memSize := rfl
@[simp] theorem setMem_reg (s : State) (m : Memory) (j : RegIdx) : (s.setMem m).reg j = s.reg j := rfl

/-! ## raise -/

@[simp] theorem raise_cfg (f : FaultInfo) (s : State) : (raise f s).cfg = s.cfg := rfl
@[simp] theorem raise_regs (f : FaultInfo) (s : State) : (raise f s).regs = s.regs := rfl
@[simp] theorem raise_pc (f : FaultInfo) (s : State) : (raise f s).pc = s.pc := rfl
@[simp] theorem raise_opc (f : FaultInfo) (s : State) : (raise f s).opc = s.opc := rfl
@[simp] theorem raise_run (f : FaultInfo) (s : State) : (raise f s).run = .faulted := rfl
@[simp] theorem raise_fault (f : FaultInfo) (s : State) : (raise f s).fault = some f := rfl
@[simp] theorem raise_mem (f : FaultInfo) (s : State) : (raise f s).mem = s.mem := rfl
@[simp] theorem raise_memSize (f : FaultInfo) (s : State) : (raise f s).memSize = s.memSize := rfl
@[simp] theorem raise_reg (f : FaultInfo) (s : State) (j : RegIdx) : (raise f s).reg j = s.reg j := rfl

/-! ## halt -/

@[simp] theorem halt_cfg (s : State) : (halt s).cfg = s.cfg := rfl
@[simp] theorem halt_regs (s : State) : (halt s).regs = s.regs := rfl
@[simp] theorem halt_pc (s : State) : (halt s).pc = s.pc := rfl
@[simp] theorem halt_opc (s : State) : (halt s).opc = s.opc := rfl
@[simp] theorem halt_run (s : State) : (halt s).run = .halted := rfl
@[simp] theorem halt_fault (s : State) : (halt s).fault = s.fault := rfl
@[simp] theorem halt_mem (s : State) : (halt s).mem = s.mem := rfl
@[simp] theorem halt_memSize (s : State) : (halt s).memSize = s.memSize := rfl
@[simp] theorem halt_reg (s : State) (j : RegIdx) : (halt s).reg j = s.reg j := rfl

/-! ## latch -/

@[simp] theorem latch_cfg (i : Instr) (s : State) : (latch i s).cfg = s.cfg := rfl
@[simp] theorem latch_regs (i : Instr) (s : State) : (latch i s).regs = s.regs := rfl
@[simp] theorem latch_pc (i : Instr) (s : State) : (latch i s).pc = s.pc := rfl
@[simp] theorem latch_opc (i : Instr) (s : State) : (latch i s).opc = i.opcode := rfl
@[simp] theorem latch_run (i : Instr) (s : State) : (latch i s).run = s.run := rfl
@[simp] theorem latch_fault (i : Instr) (s : State) : (latch i s).fault = s.fault := rfl
@[simp] theorem latch_mem (i : Instr) (s : State) : (latch i s).mem = s.mem := rfl
@[simp] theorem latch_memSize (i : Instr) (s : State) : (latch i s).memSize = s.memSize := rfl
@[simp] theorem latch_reg (i : Instr) (s : State) (j : RegIdx) : (latch i s).reg j = s.reg j := rfl

/-! ## advance -/

@[simp] theorem advance_cfg (s : State) : (advance s).cfg = s.cfg := rfl
@[simp] theorem advance_regs (s : State) : (advance s).regs = s.regs := rfl
@[simp] theorem advance_pc (s : State) : (advance s).pc = s.pc + 4 := rfl
@[simp] theorem advance_opc (s : State) : (advance s).opc = s.opc := rfl
@[simp] theorem advance_run (s : State) : (advance s).run = if s.memSize ≤ (s.pc + 4).toNat then .halted else s.run := rfl
@[simp] theorem advance_fault (s : State) : (advance s).fault = s.fault := rfl
@[simp] theorem advance_mem (s : State) : (advance s).mem = s.mem := rfl
@[simp] theorem advance_memSize (s : State) : (advance s).memSize = s.memSize := rfl
@[simp] theorem advance_reg (s : State) (j : RegIdx) : (advance s).reg j = s.reg j := rfl

/-! ## Reset -/

@[simp] theorem resetWith_reg (cfg : Config) (i : RegIdx) : (State.resetWith cfg).reg i = 0 := by
  simp [State.reg, State.resetWith]
@[simp] theorem resetWith_cfg (cfg : Config) : (State.resetWith cfg).cfg = cfg := rfl
@[simp] theorem resetWith_pc (cfg : Config) : (State.resetWith cfg).pc = 0 := rfl
@[simp] theorem resetWith_opc (cfg : Config) : (State.resetWith cfg).opc = .idle := rfl
@[simp] theorem resetWith_run (cfg : Config) : (State.resetWith cfg).run = .running := rfl
@[simp] theorem resetWith_fault (cfg : Config) : (State.resetWith cfg).fault = none := rfl
@[simp] theorem resetWith_mem (cfg : Config) : (State.resetWith cfg).mem = [] := rfl
@[simp] theorem resetWith_memSize (cfg : Config) :
    (State.resetWith cfg).memSize = cfg.memSize.val := rfl

/-- Two states that agree in every field, registers read one by one, are equal. -/
theorem State.ext_reg {s t : State} (hc : t.cfg = s.cfg) (hr : ∀ i : RegIdx, t.reg i = s.reg i)
    (hp : t.pc = s.pc) (ho : t.opc = s.opc) (hn : t.run = s.run) (hf : t.fault = s.fault)
    (hm : t.mem = s.mem) : t = s := by
  cases s
  cases t
  simp only [State.reg] at hc hr hp ho hn hf hm
  subst hc hp ho hn hf hm
  congr
  exact Vector.ext fun i h => hr ⟨i, h⟩

/-- MEM_SIZE is at most 2^30 in every state (R6). -/
theorem State.memSize_le (s : State) : s.memSize ≤ 2 ^ 30 := Nat.lt_succ_iff.mp s.cfg.memSize.isLt

end Sys2Proof.Machine
end

