-- ==== Sys2Proof/Laws/Step.lean ====
section
/-! SUPPORT. What each stage and the whole step can do, said once: later proofs cite these lemmas and
unfold neither `step` nor a meaning. -/

namespace Sys2Proof.Machine

/-! ## Operands -/

/-- R9: `sint32` is the two's-complement value. -/
theorem sint32_eq (v : Word) : sint32 v = v.toInt := by
  have h := BitVec.toInt_eq_toNat_cond v
  unfold sint32
  split <;> split at h <;> omega

@[simp] theorem effectiveAddress_latch (i : Instr) (s : State) (rs1 : RegIdx) (imm : BitVec 10) :
    effectiveAddress (latch i s) rs1 imm = effectiveAddress s rs1 imm := rfl

/-! ## Stage 4 -/

/-- Everything a LOAD can do. -/
theorem execLoad_cases (rd rs1 : RegIdx) (imm : BitVec 10) (s : State) :
    (InBounds s (effectiveAddress s rs1 imm) ∧ exec (.load rd rs1 imm) s =
      .next (s.setReg rd (memRead s.mem (effectiveAddress s rs1 imm).toNat))) ∨
    (¬InBounds s (effectiveAddress s rs1 imm) ∧ exec (.load rd rs1 imm) s =
      .next (raise (.outOfBoundsAccess (effectiveAddress s rs1 imm)) s)) := by
  by_cases h : InBounds s (effectiveAddress s rs1 imm)
  · exact .inl ⟨h, if_pos h⟩
  · exact .inr ⟨h, if_neg h⟩

/-- Everything a STORE can do. -/
theorem execStore_cases (rs1 rs2 : RegIdx) (imm : BitVec 10) (s : State) :
    (InBounds s (effectiveAddress s rs1 imm) ∧ exec (.store rs1 rs2 imm) s =
      .next (s.setMem (memWrite s.mem (effectiveAddress s rs1 imm).toNat (s.reg rs2)))) ∨
    (¬InBounds s (effectiveAddress s rs1 imm) ∧ exec (.store rs1 rs2 imm) s =
      .next (raise (.outOfBoundsAccess (effectiveAddress s rs1 imm)) s)) := by
  by_cases h : InBounds s (effectiveAddress s rs1 imm)
  · exact .inl ⟨h, if_pos h⟩
  · exact .inr ⟨h, if_neg h⟩

/-- Everything an instruction can do: write one register, write four bytes that lie in memory, halt, or
raise an access fault (R67). -/
theorem exec_cases (i : Instr) (s : State) :
    (∃ rd v, ((∃ n, i = .add rd n) ∨ (∃ n, i = .sub rd n) ∨ ∃ rs1 imm, i = .load rd rs1 imm) ∧
      exec i s = .next (s.setReg rd v)) ∨
    (∃ rs1 rs2 imm, i = .store rs1 rs2 imm ∧ InBounds s (effectiveAddress s rs1 imm) ∧
      exec i s = .next (s.setMem (memWrite s.mem (effectiveAddress s rs1 imm).toNat (s.reg rs2)))) ∨
    (i = .brk ∧ exec i s = .next (halt s)) ∨
    (∃ rs1 imm, ((∃ rd, i = .load rd rs1 imm) ∨ ∃ rs2, i = .store rs1 rs2 imm) ∧
      ¬InBounds s (effectiveAddress s rs1 imm) ∧
      exec i s = .next (raise (.outOfBoundsAccess (effectiveAddress s rs1 imm)) s)) := by
  cases i with
  | add rd n => exact .inl ⟨rd, _, .inl ⟨n, rfl⟩, rfl⟩
  | sub rd n => exact .inl ⟨rd, _, .inr (.inl ⟨n, rfl⟩), rfl⟩
  | load rd rs1 imm =>
    rcases execLoad_cases rd rs1 imm s with ⟨_, h⟩ | ⟨hb, h⟩
    · exact .inl ⟨rd, _, .inr (.inr ⟨rs1, imm, rfl⟩), h⟩
    · exact .inr (.inr (.inr ⟨rs1, imm, .inl ⟨rd, rfl⟩, hb, h⟩))
  | store rs1 rs2 imm =>
    rcases execStore_cases rs1 rs2 imm s with ⟨hb, h⟩ | ⟨hb, h⟩
    · exact .inr (.inl ⟨rs1, rs2, imm, rfl, hb, h⟩)
    · exact .inr (.inr (.inr ⟨rs1, imm, .inr ⟨rs2, rfl⟩, hb, h⟩))
  | brk => exact .inr (.inr (.inl ⟨rfl, rfl⟩))

/-! ## Stages 1 and 5 -/

theorem fetch_some {s : State} {w : Word} :
    fetch s = some w ↔ s.pc.toNat + 4 ≤ s.memSize ∧ memRead s.mem s.pc.toNat = w := by
  simp [fetch]

theorem fetch_none {s : State} : fetch s = none ↔ s.memSize < s.pc.toNat + 4 := by
  simp [fetch]

/-- The program counter of a fetching core does not wrap (R20). -/
theorem pc_add_four {s : State} (h : s.pc.toNat + 4 ≤ s.memSize) :
    (s.pc + 4).toNat = s.pc.toNat + 4 := by
  have := s.memSize_le
  rw [BitVec.toNat_add, show (4 : Word).toNat = 4 from rfl, Nat.mod_eq_of_lt (by omega)]

/-- Stage 5 after a fetch: `pc` is 4 further on, and CORE is RUNNING exactly if that is still in memory
(R68, R69). -/
theorem advance_spec {s u : State} (h : s.pc.toNat + 4 ≤ s.memSize) (hp : u.pc = s.pc)
    (hm : u.memSize = s.memSize) (hr : u.run = .running) :
    (advance u).pc.toNat = s.pc.toNat + 4 ∧
    (advance u).run = if s.pc.toNat + 4 ≥ s.memSize then .halted else .running := by
  rw [advance_pc, advance_run, hp, hm, hr, pc_add_four h]
  exact ⟨rfl, rfl⟩

theorem endStep_next_running {t : State} (h : t.run = .running) :
    endStep (.next t) = .next (advance t) := by simp [endStep, h]

theorem endStep_next_stopped {t : State} (h : t.run ≠ .running) :
    endStep (.next t) = .next t := by simp [endStep, h]

/-! ## The step -/

theorem step_halted {s : State} (h : s.run = .halted) : step s = .fault .coreHalted := by
  simp [step, h]

theorem step_faulted {s : State} (h : s.run = .faulted) : step s = .fault .coreFaulted := by
  simp [step, h]

/-- The fetch fault (R65). -/
theorem step_fetchFault {s : State} (hr : s.run = .running) (h : s.memSize < s.pc.toNat + 4) :
    step s = .next (fetchFault s) := by
  simp [step, hr, fetch_none.mpr h]

/-- The decode fault (R66). -/
theorem step_decodeFault {s : State} {w : Word} (hr : s.run = .running) (hf : fetch s = some w)
    (hd : decodeWord s.cfg.rdField w = none) : step s = .next (decodeFault w s) := by
  simp [step, hr, hf, hd]

/-- Everything a step can do when it answers a next state. -/
theorem step_cases {s t : State} (h : step s = .next t) :
    s.run = .running ∧
    ((s.memSize < s.pc.toNat + 4 ∧ t = fetchFault s) ∨
     (∃ w, fetch s = some w ∧ decodeWord s.cfg.rdField w = none ∧ t = decodeFault w s) ∨
     (∃ w i, fetch s = some w ∧ decodeWord s.cfg.rdField w = some i ∧
        endStep (exec i (latch i s)) = .next t)) := by
  cases hr : s.run with
  | halted => simp [step_halted hr] at h
  | faulted => simp [step_faulted hr] at h
  | running =>
    refine ⟨rfl, ?_⟩
    cases hf : fetch s with
    | none =>
      have hb := fetch_none.mp hf
      rw [step_fetchFault hr hb] at h
      exact .inl ⟨hb, by cases h; rfl⟩
    | some w =>
      cases hd : decodeWord s.cfg.rdField w with
      | none =>
        rw [step_decodeFault hr hf hd] at h
        exact .inr (.inl ⟨w, rfl, hd, by cases h; rfl⟩)
      | some i =>
        refine .inr (.inr ⟨w, i, rfl, hd, ?_⟩)
        rw [← h]
        simp [step, hr, hf, hd]

/-- What a decoded instruction leaves after stage 5. -/
theorem endStep_exec_cases {i : Instr} {s t : State} (hr : s.run = .running)
    (h : endStep (exec i (latch i s)) = .next t) :
    (∃ rd v, ((∃ n, i = .add rd n) ∨ (∃ n, i = .sub rd n) ∨ ∃ rs1 imm, i = .load rd rs1 imm) ∧
      t = advance ((latch i s).setReg rd v)) ∨
    (∃ rs1 rs2 imm, i = .store rs1 rs2 imm ∧ InBounds s (effectiveAddress s rs1 imm) ∧
      t = advance ((latch i s).setMem
        (memWrite s.mem (effectiveAddress s rs1 imm).toNat (s.reg rs2)))) ∨
    (i = .brk ∧ t = halt (latch i s)) ∨
    (∃ rs1 imm, ((∃ rd, i = .load rd rs1 imm) ∨ ∃ rs2, i = .store rs1 rs2 imm) ∧
      ¬InBounds s (effectiveAddress s rs1 imm) ∧
      t = raise (.outOfBoundsAccess (effectiveAddress s rs1 imm)) (latch i s)) := by
  rcases exec_cases i (latch i s) with ⟨rd, v, hi, he⟩ | ⟨rs1, rs2, imm, hi, hb, he⟩ | ⟨hi, he⟩ |
    ⟨rs1, imm, hi, hb, he⟩
  · rw [he, endStep_next_running (by simpa using hr)] at h
    exact .inl ⟨rd, v, hi, by cases h; rfl⟩
  · rw [he, endStep_next_running (by simpa using hr)] at h
    exact .inr (.inl ⟨rs1, rs2, imm, hi, hb, by cases h; rfl⟩)
  · rw [he, endStep_next_stopped (by simp)] at h
    exact .inr (.inr (.inl ⟨hi, by cases h; rfl⟩))
  · rw [he, endStep_next_stopped (by simp)] at h
    exact .inr (.inr (.inr ⟨rs1, imm, hi, hb, by cases h; rfl⟩))

/-- A running core always has a next state: nothing is refused and nothing stops without CORE's own
fault record (R64). -/
theorem step_running {s : State} (hr : s.run = .running) : ∃ t, step s = .next t := by
  cases hf : fetch s with
  | none => exact ⟨_, step_fetchFault hr (fetch_none.mp hf)⟩
  | some w =>
    cases hd : decodeWord s.cfg.rdField w with
    | none => exact ⟨_, step_decodeFault hr hf hd⟩
    | some i =>
      rw [show step s = endStep (exec i (latch i s)) by simp [step, hr, hf, hd]]
      rcases exec_cases i (latch i s) with ⟨_, _, _, he⟩ | ⟨_, _, _, _, _, he⟩ | ⟨_, he⟩ |
        ⟨_, _, _, _, he⟩ <;> exact ⟨_, by rw [he]; rfl⟩

/-- A decoded instruction's step (R64). -/
theorem step_decoded {s : State} {w : Word} {i : Instr} (hr : s.run = .running)
    (hf : fetch s = some w) (hd : decodeWord s.cfg.rdField w = some i) :
    step s = endStep (exec i (latch i s)) := by
  simp [step, hr, hf, hd]

/-- One step of a run on the host's interface. -/
theorem core_run_succ {s t : State} (k : Nat) (h : step s = .next t) :
    Host.Core.run Sys2Proof.core (k + 1) s = Host.Core.run Sys2Proof.core k t := by
  have h' : Sys2Proof.core.step s = .next t := h
  simp [Host.Core.run, h']

/-- A run of at least one step that answers a next state begins with a step. -/
theorem core_run_succ_cases {k : Nat} {s u : State}
    (h : Host.Core.run Sys2Proof.core (k + 1) s = .next u) :
    ∃ t, step s = .next t ∧ Host.Core.run Sys2Proof.core k t = .next u := by
  by_cases hr : s.run = .running
  · obtain ⟨t, ht⟩ := step_running hr
    exact ⟨t, ht, core_run_succ k ht ▸ h⟩
  · simp only [Host.Core.run] at h
    split at h
    · exact absurd (step_cases ‹_›).1 hr
    · cases h
    · cases h

/-- What holds of a state and is kept by every step holds all along a run. -/
theorem core_run_induction {P : State → Prop} (keeps : ∀ s t, P s → step s = .next t → P t) :
    ∀ (k : Nat) {s t : State}, P s → Host.Core.run Sys2Proof.core k s = .next t → P t
  | 0, s, t, hs, h => by
    have : Host.Outcome.next s = .next t := h
    cases this
    exact hs
  | k + 1, s, t, hs, h => by
    obtain ⟨u, hu, ht⟩ := core_run_succ_cases h
    exact core_run_induction keeps k (keeps s u hs hu) ht

end Sys2Proof.Machine
end

