-- ==== Sys2Proof/Tests/Slice0.lean ====
section
/-! SUPPORT. The model's own tests: expected values from 95_test_vectors.md or worked by hand from the
rules, never from the model; and, for every statement with hypotheses, a concrete state that meets
them. -/

namespace Sys2Proof.Tests

open Sys2Proof.Machine

/-! ## Small machines -/

/-- The reference parameters with another memory size. -/
def sized (n : Nat) (h : n ≤ 2 ^ 30 := by decide) : Config :=
  { Config.reference with memSize := ⟨n, Nat.lt_succ_of_le h⟩ }

/-- A core with the words loaded at address 0. -/
def loaded (cfg : Config) (words : List Word) : State := loadWords words (State.resetWith cfg)

/-- The reference core with one word loaded. -/
def one (w : Word) : State := loaded Config.reference [w]

/-- The state a step ends in, or the same state where no step is enabled. -/
def after (s : State) : State :=
  match step s with
  | .next t => t
  | .fault _ => s
  | .refused _ => s

theorem step_after {s : State} (h : s.run = .running) : step s = .next (after s) := by
  obtain ⟨t, ht⟩ := step_running h
  simp [after, ht]

/-! ## WellFormed refuses an ill-formed term, one for each check -/

theorem test_wf_add : Instr.wf .bits8to11 (.add 8 0) = false := by decide
theorem test_wf_sub : Instr.wf .bits8to11 (.sub 31 0) = false := by decide
theorem test_wf_load : Instr.wf .bits8to11 (.load 8 0 0) = false := by decide
theorem test_wf_admits : Instr.wf .bits8to11 (.add 7 31) = true ∧ Instr.wf .bits7to12 (.add 31 31) = true := by
  decide

/-! ## The extractor and the fields (E1, V-ENC-1) -/

theorem test_field_instances :
    field 0x12345678#32 0 32 (by decide) = 0x12345678 ∧ field 0x12345678#32 0 16 (by decide) = 0x1234 ∧
    field 0x12345678#32 16 32 (by decide) = 0x5678 ∧ field 0x12345678#32 5 5 (by decide) = 0 ∧
    field 0xFFFFFFFF#32 0 1 (by decide) = 1 ∧ field 0x12345678#32 31 32 (by decide) = 0 := by decide

theorem test_fields_split :
    opfOf 0x12345678#32 = 0x09#7 ∧ rdOf .bits8to11 0x12345678#32 = 1 ∧ rs1Of 0x12345678#32 = 8#5 ∧
    rs2Of 0x12345678#32 = 0x15#5 ∧ immOf 0x12345678#32 = 0x278#10 := by decide

/-! ## Decoding: words written out bit by bit from the format of R54 and the table of R55

The groups are opf, an unused bit, rd, an unused bit, rs1, rs2 and imm10. -/

theorem test_decode_add : decodeWord .bits8to11
    (0b0110011#7 ++ 0b0#1 ++ 0b001#3 ++ 0b0#1 ++ 0b00101#5 ++ 0b00000#5 ++ 0b0000000000#10) =
      some (.add 1 5) := by decide
theorem test_decode_sub : decodeWord .bits8to11
    (0b0110000#7 ++ 0b1#1 ++ 0b110#3 ++ 0b1#1 ++ 0b10001#5 ++ 0b11111#5 ++ 0b1111111111#10) =
      some (.sub 6 17) := by decide
theorem test_decode_load : decodeWord .bits8to11
    (0b0000011#7 ++ 0b0#1 ++ 0b101#3 ++ 0b0#1 ++ 0b10100#5 ++ 0b11011#5 ++ 0b1000000001#10) =
      some (.load 5 20 513) := by decide
theorem test_decode_store : decodeWord .bits8to11
    (0b0100011#7 ++ 0b1#1 ++ 0b111#3 ++ 0b1#1 ++ 0b00110#5 ++ 0b11001#5 ++ 0b0000001100#10) =
      some (.store 6 25 12) := by decide
theorem test_decode_break : decodeWord .bits8to11
    (0b0000000#7 ++ 0b1#1 ++ 0b111#3 ++ 0b1#1 ++ 0b11111#5 ++ 0b11111#5 ++ 0b1111111111#10) =
      some .brk := by decide

/-- V-ENC-3, C1: a six-digit pattern shifted up, and a pattern with `w[31] = 1`, are unknown. -/
theorem test_decode_unknown :
    decodeWord .bits8to11 0xCC000000#32 = none ∧ decodeWord .bits8to11 0xE6000000#32 = none ∧
    decodeWord .bits8to11 0x02000000#32 = none ∧ decodeWord .bits8to11 0xFE000000#32 = none := by
  decide

/-- V-ENC-5: RD_FIELD = [7,12) reads `w[24:20]`. -/
theorem test_decode_alternative_rd : decodeWord .bits7to12
    (0b0110011#7 ++ 0b10010#5 ++ 0b00101#5 ++ 0b00000#5 ++ 0b0000000000#10) =
      some (.add 18 5) := by decide

/-- R30, R46: the bytes of V-ENC-2's `load x5, 1(x4)` in address order, and three bytes only. -/
theorem test_decode_bytes :
    decodeBytes .bits8to11 [0x01#8, 0x00#8, 0xA2#8, 0x06#8] = .ok (.load 5 4 1) ∧
    decodeBytes .bits8to11 [0x01#8, 0x00#8, 0xA2#8] = .error (.truncated 3) := ⟨rfl, rfl⟩

/-- V-ENC-2: the assembler's words. -/
theorem test_encode_words :
    encode .bits8to11 (.add 7 31) = 0x66EF8000#32 ∧ encode .bits8to11 (.sub 4 1) = 0x60808000#32 ∧
    encode .bits8to11 (.load 2 0 16) = 0x06400010#32 ∧ encode .bits8to11 (.store 0 3 12) = 0x46000C0C#32 ∧
    encode .bits8to11 .brk = 0x00000000#32 := by decide

/-- The host's entry point: V-ENC-2's `store x1, 64(x0)`, and a table row of no whole word. -/
theorem test_decode_table_word :
    decodeTableWord 32 0x46000440 = some (.store 0 1 64) ∧ decodeTableWord 32 0xE6000000 = none ∧
    decodeTableWord 16 0xE6000000 = some .brk := by decide

/-! ## Instructions, two tests each -/

/-- V-ALU-4: the sum wraps, with no trap. -/
theorem test_add_wraps : (after ((one 0x66608000#32).setReg 3 0xFFFFFFFF#32)).reg 3 = 0 ∧
    (after ((one 0x66608000#32).setReg 3 0xFFFFFFFF#32)).run = .running := by decide
/-- V-ALU-8: the number, not register x2. -/
theorem test_add_index_as_value : (after ((one 0x66210000#32).setReg 2 100)).reg 1 = 2 ∧
    (after ((one 0x66210000#32).setReg 2 100)).reg 2 = 100 := by decide
/-- V-ALU-5: the difference wraps, with no borrow recorded. -/
theorem test_sub_wraps : (after (one 0x60208000#32)).reg 1 = 0xFFFFFFFF#32 := by decide
/-- V-ALU-6: the minuend is the register, the subtrahend the number. -/
theorem test_sub_order : (after ((one 0x602F8000#32).setReg 1 5)).reg 1 = 0xFFFFFFE6#32 := by decide
/-- V-LS-5: a negative base, and the word loaded little-endian. -/
theorem test_load_negative_base :
    (after ((one 0x06A20001#32).setReg 4 0xFFFFFFFF#32)).reg 5 = 0x06A20001#32 := by decide
/-- V-LS-4: the last byte counts, and a load that straddles the end writes no register. -/
theorem test_load_straddles_end :
    (after (one 0x062001FD#32)).fault = some (.outOfBoundsAccess 509) ∧
    (after (one 0x062001FD#32)).reg 1 = 0 ∧ (after (one 0x062001FD#32)).opc = .load ∧
    (after (one 0x062001FD#32)).pc = 0 := by decide
/-- V-LS-14: a misaligned store, little-endian, over its own slot and the next. -/
theorem test_store_misaligned :
    (List.range 8).map ((after ((one 0x46000402#32).setReg 1 0xAABBCCDD#32)).mem.read) =
      [0x02#8, 0x04#8, 0xDD#8, 0xCC#8, 0xBB#8, 0xAA#8, 0x00#8, 0x00#8] := by decide
/-- V-LS-11: a store that straddles the end writes no byte. -/
theorem test_store_straddles_end :
    (after ((one 0x460005FE#32).setReg 1 0xAABBCCDD#32)).fault = some (.outOfBoundsAccess 510) ∧
    (after ((one 0x460005FE#32).setReg 1 0xAABBCCDD#32)).mem.read 510 = 0 := by decide
/-- E7: BREAK halts with `pc` unchanged. -/
theorem test_break_halts : (after (one 0)).run = .halted ∧ (after (one 0)).pc = 0 ∧
    (after (one 0)).opc = .brk := by decide
/-- V-SYS-2: the low 25 bits of BREAK are ignored. -/
theorem test_break_ignores_low_bits : (after (one 0x01FFFFFF#32)).run = .halted := by decide

/-! ## Operands, memory and the engine -/

/-- V-LS-7 and V-LS-19: addresses in the integers, beyond any signed 32-bit sum. -/
theorem test_address_does_not_wrap :
    effectiveAddress (State.reset.setReg 4 0x7FFFFFFF#32) 4 1023 = 2147484670 ∧
    effectiveAddress (State.reset.setReg 5 0x80000000#32) 5 0 = -2147483648 := by decide
/-- V-LS-21: both readings of the immediate. -/
theorem test_offset_readings : offset .sign 0x3FF = -1 ∧ offset .zero 0x3FF = 1023 ∧
    offset .sign 0x200 = -512 ∧ offset .sign 0x1FF = 511 := by decide
/-- R32's example. -/
theorem test_overlapping_writes :
    memRead (memWrite (memWrite [] 0 0x11223344#32) 2 0xAABBCCDD#32) 0 = 0xCCDD3344#32 := by decide
/-- The canonical form: writing the reset value removes the entry. -/
theorem test_write_zero_removes : memWrite (memWrite [] 4 0x11223344#32) 4 0 = [] := by decide
/-- V-ENC-3: a failed decode leaves `opc`. -/
theorem test_unknown_opcode :
    (after (one 0xCC000000#32)).fault = some (.unknownOpcode 102) ∧
    (after (one 0xCC000000#32)).opc = .idle ∧ (after (one 0xCC000000#32)).pc = 0 := by decide
/-- E6 with MEM_SIZE = 4: the same step advances and halts. -/
theorem test_leaving_memory : (after (loaded (sized 4) [0x66228000#32])).run = .halted ∧
    (after (loaded (sized 4) [0x66228000#32])).pc = 4 ∧
    (after (loaded (sized 4) [0x66228000#32])).opc = .add := by decide
/-- V-ENG-2: fewer than four bytes. -/
theorem test_fetch_fault : (after (loaded (sized 3) [])).fault = some (.outOfBoundsAccess 0) ∧
    (after (loaded (sized 3) [])).opc = .idle := by decide
/-- V-ENG-1: the check at run entry with no memory. -/
theorem test_run_entry : (runEntry (loaded (sized 0) [])).run = .halted ∧
    (runEntry (loaded (sized 0) [])).opc = .idle := by decide
/-- D18. -/
theorem test_fault_codes : (FaultInfo.unknownOpcode 1).code = 1 ∧
    (FaultInfo.outOfBoundsAccess 1).code = 2 ∧ (FaultInfo.outOfBoundsLoad 1).code = 3 := by decide

/-! ## The host's moves -/

/-- V-HOST-2 and V-HOST-3 in small: three words do not fit in 11 bytes, and do in 12. -/
theorem test_load_bound :
    (loaded (sized 11) [0x66228000#32, 0, 0]).fault = some (.outOfBoundsLoad 3) ∧
    (loaded (sized 11) [0x66228000#32, 0, 0]).mem = [] ∧
    (loaded (sized 12) [0x66228000#32, 0, 0]).fault = none := by decide
/-- V-HOST-4. -/
theorem test_load_bytes : (List.range 5).map ((one 0x11223344#32).mem.read) =
    [0x44#8, 0x33#8, 0x22#8, 0x11#8, 0x00#8] := by decide
/-- R105: a second load is refused. -/
theorem test_second_load : ∃ h, (Session.create Config.reference).load [] = .next h ∧
    h.load [] = .refused .loadNotFirst := ⟨_, rfl, rfl⟩
/-- V-HOST-6 in small: what the port presents over `add x1, 5` and the BREAK after it. -/
theorem test_observe_run : (observeRun 3 (one 0x66228000#32)).map (fun o =>
      match o with
      | .snapshot pc opc regs => (pc, opc, regs[1])
      | .faultRecord _ => (0, .idle, 0)) = [(4, .add, 5), (4, .brk, 5)] := by decide
/-- V-HOST-5: `run()` to the end of E7's program, and again. -/
theorem test_run_twice : (runToEnd (one 0)).run = .halted ∧ runToEnd (runToEnd (one 0)) = runToEnd (one 0) := by
  decide

/-! ## Witnesses: for every statement with hypotheses, values that meet them together

Where a statement has several clauses, each clause has its witness, at a boundary of its range. -/

theorem witness_ResetLeavesTheSpecsValues : 4 ≤ (sized 4).memSize.val := by decide

/-- The largest program that fits in the reference memory, its last word and its last byte. -/
theorem witness_LoadWritesEachWordLittleEndian :
    4 * (List.replicate 128 (1#32)).length ≤ State.reset.memSize ∧
    127 < (List.replicate 128 (1#32)).length ∧ 3 < 4 ∧ 4 * (List.replicate 128 (1#32)).length ≤ 512 := by
  rw [List.length_replicate]
  decide

/-- The smallest program that does not fit. -/
theorem witness_LoadTooLongFaultsAndWritesNothing :
    State.reset.memSize < 4 * (List.replicate 129 (1#32)).length := by
  rw [List.length_replicate]
  decide

theorem witness_RunEntryHaltsOutsideMemory :
    ((State.resetWith (sized 0)).run = .running ∧
      (State.resetWith (sized 0)).memSize ≤ (State.resetWith (sized 0)).pc.toNat) ∧
    (State.resetWith (sized 1)).pc.toNat < (State.resetWith (sized 1)).memSize ∧
    (halt State.reset).run ≠ .running := by decide

theorem witness_RunRepeatsTheStepUntilItStops :
    (State.reset.run = .running ∧ State.reset.pc.toNat < State.reset.memSize) ∧
    ((State.resetWith (sized 0)).run = .running ∧
      (State.resetWith (sized 0)).memSize ≤ (State.resetWith (sized 0)).pc.toNat) := by decide

theorem witness_RunOfAStoppedCoreChangesNothing : (after (one 0)).run ≠ .running := by decide

theorem witness_RunEndsHaltedOrWithAFault :
    (one 0).FaultMatchesRun ∧ (after (one 0xFE000000#32)).FaultMatchesRun := by decide

/-- The core started on a program: where RunEndsAtTheFirstBreakOrTheEnd begins. -/
def started (cfg : Config) (words : List Word) : State := runEntry (loaded cfg words)

/-- The hypotheses of RunEndsAtTheFirstBreakOrTheEnd, for one configuration and program. -/
def RunEndsPremises (cfg : Config) (words : List Word) : Prop :=
  4 * words.length ≤ cfg.memSize.val ∧
  (∀ k t, Host.Core.run Sys2Proof.core k (started cfg words) = .next t → t.run ≠ .faulted) ∧
  ∀ k t t', Host.Core.run Sys2Proof.core k (started cfg words) = .next t → step t = .next t' →
    ∀ j, t.pc.toNat ≤ 4 * j → 4 * j + 4 ≤ t.memSize →
      memRead t'.mem (4 * j) ≠ memRead t.mem (4 * j) →
      opcodeBits (memRead t'.mem (4 * j)) = 0

/-- A run that halts in its second step and never writes memory meets them. -/
theorem runEndsPremises_of_two_steps (cfg : Config) (words : List Word)
    (hfits : 4 * words.length ≤ cfg.memSize.val)
    (r0 : (started cfg words).run = .running) (r1 : (after (started cfg words)).run = .running)
    (r2 : (after (after (started cfg words))).run = .halted)
    (m1 : (after (started cfg words)).mem = (started cfg words).mem)
    (m2 : (after (after (started cfg words))).mem = (after (started cfg words)).mem) :
    RunEndsPremises cfg words := by
  unfold RunEndsPremises
  generalize started cfg words = s at *
  have h0 := step_after r0
  have h1 := step_after r1
  have h2 := step_halted r2
  have at_k : ∀ k t, Host.Core.run Sys2Proof.core k s = .next t →
      t = s ∨ t = after s ∨ t = after (after s) := by
    refine fun k t h => core_run_induction (P := fun u => u = s ∨ u = after s ∨ u = after (after s))
      ?_ k (.inl rfl) h
    rintro u v (rfl | rfl | rfl) hv
    · exact .inr (.inl (Host.Outcome.next.inj (hv.symm.trans h0)))
    · exact .inr (.inr (Host.Outcome.next.inj (hv.symm.trans h1)))
    · rw [h2] at hv
      cases hv
  refine ⟨hfits, fun k t h => ?_, fun k t t' h hs j _ _ hne => ?_⟩
  · rcases at_k k t h with rfl | rfl | rfl
    · simp [r0]
    · simp [r1]
    · simp [r2]
  · rcases at_k k t h with rfl | rfl | rfl
    · cases hs.symm.trans h0
      exact absurd (by rw [m1]) hne
    · cases hs.symm.trans h1
      exact absurd (by rw [m2]) hne
    · rw [h2] at hs
      cases hs

/-- m = n by the untouched word at 4n: one ADD, and the zero word after it. -/
theorem witness_RunEndsAtTheFirstBreakOrTheEnd :
    RunEndsPremises (sized 8) [0x66208000#32] ∧
    (after (after (started (sized 8) [0x66208000#32]))).pc = 4 :=
  ⟨runEndsPremises_of_two_steps _ _ (by decide) (by decide) (by decide) (by decide) (by decide)
    (by decide), by decide⟩

/-- m < n: the BREAK in the second of three slots. -/
theorem witness_RunEndsAtTheFirstBreakOrTheEnd_break :
    RunEndsPremises (sized 12) [0x66208000#32, 0, 0x66208000#32] ∧
    (after (after (started (sized 12) [0x66208000#32, 0, 0x66208000#32]))).pc = 4 :=
  ⟨runEndsPremises_of_two_steps _ _ (by decide) (by decide) (by decide) (by decide) (by decide)
    (by decide), by decide⟩

/-- m = n with 4n = MEM_SIZE: V-ENG-4's program leaves memory. -/
theorem witness_RunEndsAtTheFirstBreakOrTheEnd_memory :
    RunEndsPremises (sized 8) [0x66208000#32, 0x66208000#32] ∧
    (after (after (started (sized 8) [0x66208000#32, 0x66208000#32]))).pc = 8 :=
  ⟨runEndsPremises_of_two_steps _ _ (by decide) (by decide) (by decide) (by decide) (by decide)
    (by decide), by decide⟩

theorem witness_PortPresentsThePostStepState :
    (∃ t, step (one 0x66228000#32) = .next t ∧ t.run = .running) ∧
    (∃ t, step (one 0) = .next t ∧ t.run = .halted) ∧
    (∃ t, step (one 0xFE000000#32) = .next t ∧ t.run = .faulted) ∧
    (after (one 0)).run ≠ .running ∧
    (0 < 1 ∧ Host.Core.run Sys2Proof.core (0 + 1) (one 0x66228000#32) =
      .next (after (one 0x66228000#32))) :=
  ⟨⟨_, step_after (by decide), by decide⟩, ⟨_, step_after (by decide), by decide⟩,
    ⟨_, step_after (by decide), by decide⟩, by decide, by decide,
    core_run_succ 0 (step_after (by decide))⟩

theorem witness_ExtractorNumbersBitsFromTheTop :
    ((0 : Nat) ≤ 32 ∧ 32 ≤ 32) ∧ ((32 : Nat) ≤ 32 ∧ 32 ≤ 32) ∧ 31 < 32 - 0 := by decide

theorem witness_OtherOpcodeValuesAreUnknown :
    (one 0xFE000000#32).Fetches 0xFE000000#32 ∧
    opcodeBits 0xFE000000#32 ∉ [0x00#7, 0x03#7, 0x23#7, 0x30#7, 0x33#7] := by decide

/-- Two different words for each mask, both readings of rd for the masks that hold it. -/
theorem witness_IgnoredBitsNeverMatter :
    0x66228000#32 &&& 0xFEEF8000#32 = 0x6732FFFF#32 &&& 0xFEEF8000#32 ∧
    0x66228000#32 &&& 0xFFFF8000#32 = 0x6622FFFF#32 &&& 0xFFFF8000#32 ∧
    0x06A20001#32 &&& 0xFEEF83FF#32 = 0x07B27C01#32 &&& 0xFEEF83FF#32 ∧
    0x06A20001#32 &&& 0xFFFF83FF#32 = 0x06A27C01#32 &&& 0xFFFF83FF#32 ∧
    0x46000440#32 &&& 0xFE0FFFFF#32 = 0x47F00440#32 &&& 0xFE0FFFFF#32 ∧
    0x00000000#32 &&& 0xFE000000#32 = 0x01FFFFFF#32 &&& 0xFE000000#32 := by decide

theorem witness_DecodeUndoesEncode : Instr.wf .bits8to11 (.load 7 31 1023) = true ∧
    Instr.wf .bits7to12 (.sub 31 31) = true := by decide

theorem witness_EncodeUndoesDecode :
    decodeWord .bits8to11 0x67FFFFFF#32 = some (.add 7 31) ∧
    decodeWord .bits7to12 0x67FFFFFF#32 = some (.add 31 31) := by decide

theorem witness_OpcodeLiesInTheHighestByte : ([1#8, 2#8, 3#8] : List Byte).length < 4 := by decide

theorem witness_WordAccessesAreTheirBytes : (3 : Nat) < 4 ∧ ((0 : Nat) < 1 ∨ 1 + 4 ≤ 0) ∧ ((5 : Nat) < 1 ∨ 1 + 4 ≤ 5) := by
  decide

theorem witness_AddWordAddsItsNumber :
    (one 0x66EF8000#32).Fetches 0x66EF8000#32 ∧ opcodeBits 0x66EF8000#32 = 0b0110011#7 := by decide

theorem witness_SubWordSubtractsItsNumber :
    (one 0x60208000#32).Fetches 0x60208000#32 ∧ opcodeBits 0x60208000#32 = 0b0110000#7 := by decide

theorem witness_AluOperandIsTheFieldNumber :
    ((one 0x66210000#32).Fetches 0x66210000#32 ∧ opcodeBits 0x66210000#32 = 0x33#7 ∧
      (1 : RegIdx).val = destBits (one 0x66210000#32).cfg.rdField 0x66210000#32 ∧ (2 : RegIdx) ≠ 1) ∧
    ((one 0x60210000#32).Fetches 0x60210000#32 ∧ opcodeBits 0x60210000#32 = 0x30#7 ∧
      (1 : RegIdx).val = destBits (one 0x60210000#32).cfg.rdField 0x60210000#32 ∧ (2 : RegIdx) ≠ 1) := by
  decide

/-- ADD, SUB and LOAD with destination x0, each leaving CORE running, and a STORE address in bounds. -/
theorem witness_RegisterZeroIsOrdinary :
    State.reset.run = .running ∧
    (∃ t, exec (.add 0 5) State.reset = .next t ∧ t.run = .running ∧
      InBounds t (effectiveAddress t 1 508)) ∧
    (∃ t, exec (.sub 0 5) State.reset = .next t ∧ t.run = .running) ∧
    ∃ t, exec (.load 0 1 508) State.reset = .next t ∧ t.run = .running := by
  refine ⟨rfl, ⟨_, rfl, rfl, by decide⟩, ⟨_, rfl, rfl⟩, ?_⟩
  rcases execLoad_cases 0 1 508 State.reset with ⟨_, h⟩ | ⟨h, _⟩
  · exact ⟨_, h, rfl⟩
  · exact absurd (by decide) h

theorem witness_AddressIsComputedInTheIntegers :
    (511#10).toNat < 512 ∧
    2 ^ 31 ≤ effectiveAddress (State.reset.setReg 4 0x7FFFFFFF#32) 4 1 ∧
    effectiveAddress ((State.resetWith { Config.reference with immExt := .sign }).setReg 4 0x80000000#32)
      4 0x3FF < -2 ^ 31 := by decide

/-- The first and the last address in bounds. -/
theorem witness_LoadResultAndFrame :
    (0 ≤ effectiveAddress State.reset 0 0 ∧ effectiveAddress State.reset 0 0 + 4 ≤ State.reset.memSize) ∧
    (0 ≤ effectiveAddress State.reset 0 508 ∧
      effectiveAddress State.reset 0 508 + 4 ≤ State.reset.memSize) := by decide

theorem witness_StoreResultAndFrame :
    0 ≤ effectiveAddress State.reset 0 508 ∧ effectiveAddress State.reset 0 508 + 4 ≤ State.reset.memSize ∧
    ((507 : Nat) : Int) < effectiveAddress State.reset 0 508 ∧
    effectiveAddress State.reset 0 508 + 4 ≤ ((512 : Nat) : Int) := by decide

/-- The first address out of bounds on either side. -/
theorem witness_AccessOutOfBoundsFaultsAndMovesNothing :
    ((State.reset.memSize : Int) < effectiveAddress State.reset 0 509 + 4) ∧
    effectiveAddress (State.reset.setReg 4 0xFFFFFFFF#32) 4 0 < 0 ∧
    (∃ rd, Instr.load 5 4 0 = .load rd 4 0) ∧ ∃ rs2, Instr.store 4 5 0 = .store 4 rs2 0 :=
  ⟨by decide, by decide, ⟨5, rfl⟩, ⟨5, rfl⟩⟩

theorem witness_LoadWordLoads :
    (one 0x062001FC#32).Fetches 0x062001FC#32 ∧ opcodeBits 0x062001FC#32 = 0b0000011#7 ∧
    (0 ≤ addressBits (one 0x062001FC#32) 0x062001FC#32 ∧
      addressBits (one 0x062001FC#32) 0x062001FC#32 + 4 ≤ (one 0x062001FC#32).memSize) ∧
    (one 0x062001FD#32).Fetches 0x062001FD#32 ∧ opcodeBits 0x062001FD#32 = 0b0000011#7 ∧
    ((one 0x062001FD#32).memSize : Int) < addressBits (one 0x062001FD#32) 0x062001FD#32 + 4 := by decide

theorem witness_StoreWordStores :
    (one 0x460005FC#32).Fetches 0x460005FC#32 ∧ opcodeBits 0x460005FC#32 = 0b0100011#7 ∧
    (0 ≤ addressBits (one 0x460005FC#32) 0x460005FC#32 ∧
      addressBits (one 0x460005FC#32) 0x460005FC#32 + 4 ≤ (one 0x460005FC#32).memSize) ∧
    (one 0x460005FD#32).Fetches 0x460005FD#32 ∧ opcodeBits 0x460005FD#32 = 0b0100011#7 ∧
    ((one 0x460005FD#32).memSize : Int) < addressBits (one 0x460005FD#32) 0x460005FD#32 + 4 := by decide

theorem witness_LoadReturnsWhatStoreWrote :
    ∃ t, InBounds (State.reset.setReg 1 0xAABBCCDD#32) (effectiveAddress (State.reset.setReg 1 0xAABBCCDD#32) 0 101) ∧
      exec (.store 0 1 101) (State.reset.setReg 1 0xAABBCCDD#32) = .next t ∧
      t.cfg = (State.reset.setReg 1 0xAABBCCDD#32).cfg ∧
      effectiveAddress t 2 101 = effectiveAddress (State.reset.setReg 1 0xAABBCCDD#32) 0 101 := by
  rcases execStore_cases 0 1 101 (State.reset.setReg 1 0xAABBCCDD#32) with ⟨hb, h⟩ | ⟨h, _⟩
  · exact ⟨_, hb, h, rfl, by decide⟩
  · exact absurd (by decide) h

theorem witness_BreakWordHalts :
    (one 0x01FFFFFF#32).Fetches 0x01FFFFFF#32 ∧ opcodeBits 0x01FFFFFF#32 = 0b0000000#7 := by decide

theorem witness_UntouchedMemoryHalts :
    (loaded (sized 4) []).run = .running ∧ (loaded (sized 4) []).pc.toNat + 4 ≤ (loaded (sized 4) []).memSize ∧
    ∀ k, k < 4 → (loaded (sized 4) []).mem.read ((loaded (sized 4) []).pc.toNat + k) = 0 := by decide

theorem witness_StepRunsTheDecodedInstruction :
    (one 0x06A20001#32).run = .running ∧ (one 0x06A20001#32).pc.toNat + 4 ≤ (one 0x06A20001#32).memSize ∧
    decodeBytes (one 0x06A20001#32).cfg.rdField [(one 0x06A20001#32).mem.read 0,
      (one 0x06A20001#32).mem.read 1, (one 0x06A20001#32).mem.read 2, (one 0x06A20001#32).mem.read 3] =
      .ok (.load 5 4 1) := ⟨rfl, by decide, rfl⟩

theorem witness_PlacedWordRunsNext :
    0x66228000 < 2 ^ 32 ∧ State.reset.run = .running ∧
    State.reset.pc.toNat + 4 ≤ State.reset.memSize ∧ State.reset.cfg.rdField = .bits8to11 ∧
    decodeTableWord 32 0x66228000 = some (.add 1 5) := by decide

/-- V-ENG-5's machine at its third fetch: MEM_SIZE = 10 and `pc` = 8, in a legal state. -/
theorem witness_FetchFaultsAtAPartialSlot :
    let s := { State.resetWith (sized 10) with pc := 8 }
    s.Inv ∧ s.run = .running ∧ s.memSize < s.pc.toNat + 4 ∧
      State.reset.pc.toNat + 4 ≤ State.reset.memSize :=
  ⟨⟨by decide, by decide, by decide, by decide⟩, by decide⟩

theorem witness_DecodeWritesTheOpcodeRegister :
    ((one 0xFE000000#32).Fetches 0xFE000000#32 ∧ decodeWord .bits8to11 0xFE000000#32 = none) ∧
    ((one 0x062001FD#32).Fetches 0x062001FD#32 ∧
      decodeWord .bits8to11 0x062001FD#32 = some (.load 1 0 509)) := by decide

theorem witness_ProgramCounterMovesOnlyByFour :
    (step (one 0xFE000000#32) = .next (after (one 0xFE000000#32)) ∧ (after (one 0xFE000000#32)).run = .faulted) ∧
    (step (one 0) = .next (after (one 0)) ∧ (after (one 0)).run ≠ .faulted ∧
      opcodeBits (memRead (one 0).mem 0) = 0) ∧
    (step (one 0x66228000#32) = .next (after (one 0x66228000#32)) ∧
      (after (one 0x66228000#32)).run ≠ .faulted ∧
      opcodeBits (memRead (one 0x66228000#32).mem 0) ≠ 0) :=
  ⟨⟨step_after (by decide), by decide⟩, ⟨step_after (by decide), by decide⟩,
    ⟨step_after (by decide), by decide⟩⟩

/-- Leaving memory, and staying in it, at the two sizes on either side of `pc` + 4. -/
theorem witness_LeavingMemoryHaltsInTheSameStep :
    (step (loaded (sized 4) [0x66228000#32]) = .next (after (loaded (sized 4) [0x66228000#32])) ∧
      (after (loaded (sized 4) [0x66228000#32])).pc.toNat = 4 ∧
      (after (loaded (sized 4) [0x66228000#32])).run = .halted) ∧
    (step (loaded (sized 5) [0x66228000#32]) = .next (after (loaded (sized 5) [0x66228000#32])) ∧
      (after (loaded (sized 5) [0x66228000#32])).pc.toNat = 4 ∧
      (after (loaded (sized 5) [0x66228000#32])).run = .running) :=
  ⟨⟨step_after (by decide), by decide⟩, ⟨step_after (by decide), by decide⟩⟩

theorem witness_StepIsEnabledExactlyWhenRunning :
    (after (one 0)).run = .halted ∧ (after (one 0xFE000000#32)).run = .faulted := by decide

/-- One step for each event: BREAK, leaving memory, and the three faults. -/
theorem witness_OnlyTheseEventsStopTheCore :
    (step (one 0) = .next (after (one 0)) ∧ (after (one 0)).run = .halted) ∧
    (step (loaded (sized 4) [0x66228000#32]) = .next (after (loaded (sized 4) [0x66228000#32])) ∧
      (after (loaded (sized 4) [0x66228000#32])).run = .halted) ∧
    (step (loaded (sized 3) []) = .next (after (loaded (sized 3) [])) ∧
      (after (loaded (sized 3) [])).run = .faulted) ∧
    (step (one 0xFE000000#32) = .next (after (one 0xFE000000#32)) ∧
      (after (one 0xFE000000#32)).run = .faulted) ∧
    step (one 0x062001FD#32) = .next (after (one 0x062001FD#32)) ∧
      (after (one 0x062001FD#32)).run = .faulted :=
  ⟨⟨step_after (by decide), by decide⟩, ⟨step_after (by decide), by decide⟩,
    ⟨step_after (by decide), by decide⟩, ⟨step_after (by decide), by decide⟩,
    step_after (by decide), by decide⟩

theorem witness_FaultsArePrecise :
    step (one 0x062001FD#32) = .next (after (one 0x062001FD#32)) ∧
    (after (one 0x062001FD#32)).run = .faulted ∧
    (after (one 0x062001FD#32)).opc ≠ (one 0x062001FD#32).opc :=
  ⟨step_after (by decide), by decide⟩

theorem witness_OnlyTheDestinationRegisterChanges :
    step (one 0x66EF8000#32) = .next (after (one 0x66EF8000#32)) ∧
    (after (one 0x66EF8000#32)).reg 7 ≠ (one 0x66EF8000#32).reg 7 := ⟨step_after (by decide), by decide⟩

/-- V-LS-14's store at its first and its last byte. -/
theorem witness_OnlyAStoreChangesMemory :
    let s := (one 0x46000402#32).setReg 1 0xAABBCCDD#32
    step s = .next (after s) ∧ (after s).mem.read 2 ≠ s.mem.read 2 ∧
      (after s).mem.read 5 ≠ s.mem.read 5 := ⟨step_after (by decide), by decide⟩

theorem witness_OpcodeRegisterNeverReturnsToIdle :
    step (one 0xFE000000#32) = .next (after (one 0xFE000000#32)) ∧
    (after (one 0xFE000000#32)).opc = .idle := ⟨step_after (by decide), by decide⟩

theorem witness_NoInstructionReadsOpcOrFault :
    (step (one 0x062001FD#32) = .next (after (one 0x062001FD#32)) ∧
      (after (one 0x062001FD#32)).run = .faulted) ∧
    (step (one 0x66228000#32) = .next (after (one 0x66228000#32)) ∧
      (after (one 0x66228000#32)).run ≠ .faulted) ∧
    (one 0x66228000#32).Fetches 0x66228000#32 ∧
    decodeWord (one 0x66228000#32).cfg.rdField 0x66228000#32 = some (.add 1 5) :=
  ⟨⟨step_after (by decide), by decide⟩, ⟨step_after (by decide), by decide⟩, by decide⟩

theorem witness_ConfigurationNeverChanges : step State.reset = .next (after State.reset) :=
  step_after (by decide)

/-- V-LS-12: `store x1, 4(x0)` with x1 = `add x1, 5`; MEM_SIZE = 8 is the least that holds both slots. -/
theorem witness_StoredWordRunsInTheNextSlot :
    let s := (loaded (sized 8) [0x46000404#32]).setReg 1 0x66228000#32
    s.Fetches 0x46000404#32 ∧ opcodeBits 0x46000404#32 = 0x23#7 ∧
      addressBits s 0x46000404#32 = s.pc.toNat + 4 ∧ s.pc.toNat + 8 ≤ s.memSize ∧
      decodeWord s.cfg.rdField (s.reg (sourceBits 0x46000404#32 10)) = some (.add 1 5) := by decide

theorem witness_EveryStepKeepsTheInvariant :
    (one 0x46000440#32).Inv ∧ step (one 0x46000440#32) = .next (after (one 0x46000440#32)) :=
  ⟨⟨by decide, by decide, by decide, by decide⟩, step_after (by decide)⟩

/-- Under the default rd field with a register it cannot name, and under [7,12), where only the clauses
on `pc` and memory say something. -/
theorem witness_UnreachableRegistersReadZeroAllRun :
    ((one 0x66EF8000#32).Inv ∧
      Host.Core.run Sys2Proof.core 1 (one 0x66EF8000#32) = .next (after (one 0x66EF8000#32)) ∧
      (one 0x66EF8000#32).cfg.rdField.count ≤ (8 : RegIdx).val) ∧
    let s := loaded { Config.reference with rdField := .bits7to12 } [0x67FFFFFF#32]
    s.Inv ∧ Host.Core.run Sys2Proof.core 1 s = .next (after s) :=
  ⟨⟨⟨by decide, by decide, by decide, by decide⟩, core_run_succ 0 (step_after (by decide)),
    by decide⟩,
    ⟨by decide, by decide, by decide, by decide⟩, core_run_succ 0 (step_after (by decide))⟩

end Sys2Proof.Tests
end

/-! SUPPORT and proofs for LOAD, STORE, reset and what stops a core: first the facts about the decoder and the
address, then what LOAD and STORE do in stage 4 and in a whole step, then the obligations. -/

namespace Sys2Proof.Machine

/-! ## The fields by their conventional bits (R8, R49 to R53) -/

theorem opfOf_eq_opcodeBits (w : Word) : opfOf w = opcodeBits w := opfOf_eq w

theorem rdOf_val (rdf : RdField) (w : Word) : (rdOf rdf w).val = destBits rdf w := by
  cases rdf with
  | bits8to11 => exact rdOf_bits8to11 w
  | bits7to12 => exact rdOf_bits7to12 w

theorem regOf_rs1Of (w : Word) : regOf (rs1Of w) = sourceBits w 15 :=
  Fin.ext (congrArg BitVec.toNat (rs1Of_eq w))

theorem regOf_rs2Of (w : Word) : regOf (rs2Of w) = sourceBits w 10 :=
  Fin.ext (congrArg BitVec.toNat (rs2Of_eq w))

/-! ## The offset and the effective address (R58, R79) -/

theorem offset_zero (imm : BitVec 10) : offset .zero imm = imm.toNat := rfl

theorem offset_sign (imm : BitVec 10) : offset .sign imm = imm.toInt := by
  have h := BitVec.toInt_eq_toNat_cond imm
  simp only [offset]
  split at h <;> split <;> omega

theorem offset_zero_bounds (imm : BitVec 10) : 0 ≤ offset .zero imm ∧ offset .zero imm ≤ 1023 := by
  have h := imm.isLt
  rw [offset_zero]
  omega

theorem offset_sign_bounds (imm : BitVec 10) : -512 ≤ offset .sign imm ∧ offset .sign imm ≤ 511 := by
  have hlo : -512 ≤ imm.toInt := BitVec.le_toInt imm
  have hhi : imm.toInt < 512 := BitVec.toInt_lt
  rw [offset_sign]
  omega

/-- The two readings differ only from 512 up (R58). -/
theorem offset_zero_eq_sign {imm : BitVec 10} (h : imm.toNat < 512) :
    offset .zero imm = offset .sign imm := (if_pos h).symm

/-- Every effective address lies within 1023 of the signed 32-bit integers. -/
theorem effectiveAddress_bounds (s : State) (rs1 : RegIdx) (imm : BitVec 10) :
    -2 ^ 31 - 512 ≤ effectiveAddress s rs1 imm ∧ effectiveAddress s rs1 imm < 2 ^ 31 + 1023 := by
  have hlo : -2 ^ 31 ≤ (s.reg rs1).toInt := BitVec.le_toInt _
  have hhi : (s.reg rs1).toInt < 2 ^ 31 := BitVec.toInt_lt
  have hz := offset_zero_bounds imm
  have hs := offset_sign_bounds imm
  unfold effectiveAddress
  rw [sint32_eq]
  cases s.cfg.immExt <;> omega

/-- The model's address of a LOAD or STORE word is the one its conventional bits give. -/
theorem effectiveAddress_eq_addressBits (s : State) (w : Word) :
    effectiveAddress s (sourceBits w 15) (immOf w) = addressBits s w := by
  unfold effectiveAddress addressBits
  rw [sint32_eq, immOf_eq]
  cases s.cfg.immExt with
  | zero => rfl
  | sign => rw [offset_sign]

theorem not_inBounds_iff {s : State} {a : Int} :
    ¬InBounds s a ↔ a < 0 ∨ (s.memSize : Int) < a + 4 := by
  unfold InBounds
  omega

/-- A sum that wraps 32 bits is out of bounds, wrapped or not: memory is at most 2^30 bytes (R79, D3). -/
theorem not_inBounds_of_overflow (s : State) (rs1 : RegIdx) (imm : BitVec 10)
    (h : effectiveAddress s rs1 imm < -2 ^ 31 ∨ 2 ^ 31 ≤ effectiveAddress s rs1 imm) :
    ¬InBounds s (effectiveAddress s rs1 imm) ∧
    ¬InBounds s ((effectiveAddress s rs1 imm).bmod (2 ^ 32)) := by
  have hm := s.memSize_le
  have hb := effectiveAddress_bounds s rs1 imm
  simp only [not_inBounds_iff, Int.bmod]
  split <;> omega

/-! ## The decoder by the conventional opcode bits (R55, R56) -/

/-- The table of R55 read from the word: the only rows a decoded instruction can come from. -/
theorem decodeWord_cases {rdf : RdField} {w : Word} {i : Instr} (h : decodeWord rdf w = some i) :
    (opcodeBits w = 0x33#7 ∧ i = .add (rdOf rdf w) (rs1Of w)) ∨
    (opcodeBits w = 0x30#7 ∧ i = .sub (rdOf rdf w) (rs1Of w)) ∨
    (opcodeBits w = 0x03#7 ∧ i = .load (rdOf rdf w) (sourceBits w 15) (immOf w)) ∨
    (opcodeBits w = 0x23#7 ∧ i = .store (sourceBits w 15) (sourceBits w 10) (immOf w)) ∨
    (opcodeBits w = 0x00#7 ∧ i = .brk) := by
  simp only [decodeWord, opfOf_eq_opcodeBits, regOf_rs1Of, regOf_rs2Of] at h
  split_ifs at h with hadd hsub hload hstore hbrk
  · exact .inl ⟨hadd, (Option.some.inj h).symm⟩
  · exact .inr (.inl ⟨hsub, (Option.some.inj h).symm⟩)
  · exact .inr (.inr (.inl ⟨hload, (Option.some.inj h).symm⟩))
  · exact .inr (.inr (.inr (.inl ⟨hstore, (Option.some.inj h).symm⟩)))
  · exact .inr (.inr (.inr (.inr ⟨hbrk, (Option.some.inj h).symm⟩)))

theorem decodeWord_add {rdf : RdField} {w : Word} (h : opcodeBits w = 0x33#7) :
    decodeWord rdf w = some (.add (rdOf rdf w) (rs1Of w)) := by
  simp [decodeWord, opfOf_eq_opcodeBits, h]

theorem decodeWord_sub {rdf : RdField} {w : Word} (h : opcodeBits w = 0x30#7) :
    decodeWord rdf w = some (.sub (rdOf rdf w) (rs1Of w)) := by
  simp [decodeWord, opfOf_eq_opcodeBits, h]

theorem decodeWord_load {rdf : RdField} {w : Word} (h : opcodeBits w = 0x03#7) :
    decodeWord rdf w = some (.load (rdOf rdf w) (sourceBits w 15) (immOf w)) := by
  simp [decodeWord, opfOf_eq_opcodeBits, h, regOf_rs1Of]

theorem decodeWord_store {rdf : RdField} {w : Word} (h : opcodeBits w = 0x23#7) :
    decodeWord rdf w = some (.store (sourceBits w 15) (sourceBits w 10) (immOf w)) := by
  simp [decodeWord, opfOf_eq_opcodeBits, h, regOf_rs1Of, regOf_rs2Of]

theorem decodeWord_brk {rdf : RdField} {w : Word} (h : opcodeBits w = 0x00#7) :
    decodeWord rdf w = some .brk := by
  simp [decodeWord, opfOf_eq_opcodeBits, h]

/-- A decoded STORE has its operands from the word's conventional bits. -/
theorem store_of_decodeWord {rdf : RdField} {w : Word} {rs1 rs2 : RegIdx} {imm : BitVec 10}
    (h : decodeWord rdf w = some (.store rs1 rs2 imm)) :
    opcodeBits w = 0x23#7 ∧ rs1 = sourceBits w 15 ∧ rs2 = sourceBits w 10 ∧ imm = immOf w := by
  simpa using decodeWord_cases h

/-- R56: a word decodes to nothing exactly when its opcode field is on no row of the table. -/
theorem decodeWord_eq_none_iff {rdf : RdField} {w : Word} :
    decodeWord rdf w = none ↔ opcodeBits w ∉ [0x00#7, 0x03#7, 0x23#7, 0x30#7, 0x33#7] := by
  simp only [decodeWord, opfOf_eq_opcodeBits]
  split_ifs <;> simp [*]

/-! ## One byte of a word read -/

/-- Byte `k` of a word read is the byte of memory at `a + k` (R30). -/
theorem byteOf_memRead (m : Memory) (a : Nat) {k : Nat} (hk : k < 4) :
    byteOf (memRead m a) k = m.read (a + k) := by
  obtain ⟨h0, h1, h2, h3⟩ :=
    byteOf_wordOfBytes (m.read a) (m.read (a + 1)) (m.read (a + 2)) (m.read (a + 3))
  interval_cases k
  · exact h0
  · exact h1
  · exact h2
  · exact h3

/-! ## LOAD and STORE, in bounds and out (R80, R81, R36) -/

theorem exec_load_inBounds {rd rs1 : RegIdx} {imm : BitVec 10} {s : State}
    (h : InBounds s (effectiveAddress s rs1 imm)) : exec (.load rd rs1 imm) s =
      .next (s.setReg rd (memRead s.mem (effectiveAddress s rs1 imm).toNat)) := if_pos h

theorem exec_store_inBounds {rs1 rs2 : RegIdx} {imm : BitVec 10} {s : State}
    (h : InBounds s (effectiveAddress s rs1 imm)) : exec (.store rs1 rs2 imm) s =
      .next (s.setMem (memWrite s.mem (effectiveAddress s rs1 imm).toNat (s.reg rs2))) := if_pos h

/-- LOAD and STORE share their fault (R36). -/
theorem exec_access_outOfBounds {i : Instr} {rs1 : RegIdx} {imm : BitVec 10} {s : State}
    (hi : (∃ rd, i = .load rd rs1 imm) ∨ ∃ rs2, i = .store rs1 rs2 imm)
    (h : ¬InBounds s (effectiveAddress s rs1 imm)) :
    exec i s = .next (raise (.outOfBoundsAccess (effectiveAddress s rs1 imm)) s) := by
  rcases hi with ⟨rd, rfl⟩ | ⟨rs2, rfl⟩
  · exact if_neg h
  · exact if_neg h

/-! ## The frame of a fault (R88) -/

theorem faultedOnly_raise (f : FaultInfo) (s : State) : FaultedOnly s (raise f s) :=
  ⟨rfl, rfl, rfl, fun _ => rfl, fun _ => rfl⟩

theorem faultedOnly_raise_latch (f : FaultInfo) (i : Instr) (s : State) :
    FaultedOnly s (raise f (latch i s)) := ⟨rfl, rfl, rfl, fun _ => rfl, fun _ => rfl⟩

/-! ## The step of a fetching core -/

theorem step_of_fetches {s : State} {w : Word} {i : Instr} (hf : s.Fetches w)
    (hd : decodeWord s.cfg.rdField w = some i) : step s = endStep (exec i (latch i s)) := by
  obtain ⟨hr, hb, hw⟩ := hf
  exact step_decoded hr (fetch_some.mpr ⟨hb, hw⟩) hd

/-- The step of an instruction that leaves CORE running ends in stage 5. -/
theorem step_completes {s u : State} {w : Word} {i : Instr} (hf : s.Fetches w)
    (hd : decodeWord s.cfg.rdField w = some i) (he : exec i (latch i s) = .next u)
    (hr : u.run = .running) : step s = .next (advance u) := by
  rw [step_of_fetches hf hd, he, endStep_next_running hr]

/-- The step of an instruction that stops CORE ends with stage 4. -/
theorem step_stops {s u : State} {w : Word} {i : Instr} (hf : s.Fetches w)
    (hd : decodeWord s.cfg.rdField w = some i) (he : exec i (latch i s) = .next u)
    (hr : u.run ≠ .running) : step s = .next u := by
  rw [step_of_fetches hf hd, he, endStep_next_stopped hr]

theorem step_load_inBounds {s : State} {w : Word} (hf : s.Fetches w) (ho : opcodeBits w = 0x03#7)
    (hb : InBounds s (addressBits s w)) :
    step s = .next (advance ((latch (.load (rdOf s.cfg.rdField w) (sourceBits w 15) (immOf w)) s).setReg
      (rdOf s.cfg.rdField w) (memRead s.mem (addressBits s w).toNat))) := by
  rw [← effectiveAddress_eq_addressBits] at hb ⊢
  exact step_completes hf (decodeWord_load ho) (exec_load_inBounds hb) hf.1

theorem step_store_inBounds {s : State} {w : Word} (hf : s.Fetches w) (ho : opcodeBits w = 0x23#7)
    (hb : InBounds s (addressBits s w)) :
    step s = .next (advance ((latch (.store (sourceBits w 15) (sourceBits w 10) (immOf w)) s).setMem
      (memWrite s.mem (addressBits s w).toNat (s.reg (sourceBits w 10))))) := by
  rw [← effectiveAddress_eq_addressBits] at hb ⊢
  exact step_completes hf (decodeWord_store ho) (exec_store_inBounds hb) hf.1

/-- A LOAD or STORE word out of bounds ends its step in the fault, `opc` written before it (R66, R88). -/
theorem step_access_outOfBounds {s : State} {w : Word} {i : Instr} (hf : s.Fetches w)
    (hd : decodeWord s.cfg.rdField w = some i)
    (hi : (∃ rd, i = .load rd (sourceBits w 15) (immOf w)) ∨
      ∃ rs2, i = .store (sourceBits w 15) rs2 (immOf w))
    (hb : ¬InBounds s (addressBits s w)) :
    step s = .next (raise (.outOfBoundsAccess (addressBits s w)) (latch i s)) := by
  rw [← effectiveAddress_eq_addressBits] at hb ⊢
  exact step_stops hf hd (exec_access_outOfBounds hi hb) (by simp)

/-- Stage 5 of a fetching core's step advances it (R68, R69). -/
theorem advanced_of_fetches {s u : State} {w : Word} (hf : s.Fetches w) (hp : u.pc = s.pc)
    (hm : u.memSize = s.memSize) (hr : u.run = s.run) : Advanced s (advance u) := by
  obtain ⟨hrun, hb, -⟩ := hf
  exact advance_spec hb hp hm (hr.trans hrun)

/-! ## What a whole step can do -/

/-- What a step does to the run state, by the word it fetches: the fetch fault, the unknown opcode, BREAK, the
access fault, and the step that completes (R64, R86). -/
theorem step_run_cases {s t : State} (h : step s = .next t) :
    (s.memSize < s.pc.toNat + 4 ∧ t.run = .faulted ∧ t.HasAccessFault) ∨
    ∃ w, s.Fetches w ∧
      ((opcodeBits w ∉ [0x00#7, 0x03#7, 0x23#7, 0x30#7, 0x33#7] ∧ t.run = .faulted ∧ t.HasOpcodeFault) ∨
       (opcodeBits w = 0x00#7 ∧ t.run = .halted) ∨
       ((opcodeBits w = 0x03#7 ∨ opcodeBits w = 0x23#7) ∧ ¬InBounds s (addressBits s w) ∧
          t.run = .faulted ∧ t.HasAccessFault) ∨
       (opcodeBits w ∈ [0x03#7, 0x23#7, 0x30#7, 0x33#7] ∧
          (opcodeBits w = 0x03#7 ∨ opcodeBits w = 0x23#7 → InBounds s (addressBits s w)) ∧
          Advanced s t)) := by
  obtain ⟨hr, ⟨hb, rfl⟩ | ⟨w, hw, hd, rfl⟩ | ⟨w, i, hw, hd, he⟩⟩ := step_cases h
  · exact .inl ⟨hb, rfl, _, rfl⟩
  · exact .inr ⟨w, ⟨hr, fetch_some.mp hw⟩, .inl ⟨decodeWord_eq_none_iff.mp hd, rfl, _, rfl⟩⟩
  · have hf : s.Fetches w := ⟨hr, fetch_some.mp hw⟩
    refine .inr ⟨w, hf, .inr ?_⟩
    obtain ⟨ho, rfl⟩ | ⟨ho, rfl⟩ | ⟨ho, rfl⟩ | ⟨ho, rfl⟩ | ⟨ho, rfl⟩ := decodeWord_cases hd
    · cases h.symm.trans (step_completes hf hd rfl hr)
      exact .inr (.inr ⟨by simp [ho], by simp [ho], advanced_of_fetches hf rfl rfl rfl⟩)
    · cases h.symm.trans (step_completes hf hd rfl hr)
      exact .inr (.inr ⟨by simp [ho], by simp [ho], advanced_of_fetches hf rfl rfl rfl⟩)
    · by_cases hb : InBounds s (addressBits s w)
      · cases h.symm.trans (step_load_inBounds hf ho hb)
        exact .inr (.inr ⟨by simp [ho], fun _ => hb, advanced_of_fetches hf rfl rfl rfl⟩)
      · cases h.symm.trans (step_access_outOfBounds hf hd (.inl ⟨_, rfl⟩) hb)
        exact .inr (.inl ⟨.inl ho, hb, rfl, _, rfl⟩)
    · by_cases hb : InBounds s (addressBits s w)
      · cases h.symm.trans (step_store_inBounds hf ho hb)
        exact .inr (.inr ⟨by simp [ho], fun _ => hb, advanced_of_fetches hf rfl rfl rfl⟩)
      · cases h.symm.trans (step_access_outOfBounds hf hd (.inr ⟨_, rfl⟩) hb)
        exact .inr (.inl ⟨.inr ho, hb, rfl, _, rfl⟩)
    · cases h.symm.trans (step_stops hf hd rfl (by simp))
      exact .inl ⟨ho, rfl⟩

/-- What a step does to memory: nothing, or the word write of a STORE in bounds (R38, R81). -/
theorem step_mem_cases {s t : State} (h : step s = .next t) :
    t.mem = s.mem ∨
    ∃ w, s.Fetches w ∧ opcodeBits w = 0x23#7 ∧ InBounds s (addressBits s w) ∧ t.run ≠ .faulted ∧
      t.mem = memWrite s.mem (addressBits s w).toNat (s.reg (sourceBits w 10)) := by
  obtain ⟨hr, ⟨-, rfl⟩ | ⟨_, -, -, rfl⟩ | ⟨w, i, hw, hd, he⟩⟩ := step_cases h
  · exact .inl rfl
  · exact .inl rfl
  obtain ⟨_, _, -, rfl⟩ | ⟨rs1, rs2, imm, rfl, hb, rfl⟩ | ⟨-, rfl⟩ | ⟨_, _, -, -, rfl⟩ :=
    endStep_exec_cases hr he
  · exact .inl rfl
  · obtain ⟨ho, rfl, rfl, rfl⟩ := store_of_decodeWord hd
    rw [effectiveAddress_eq_addressBits] at hb ⊢
    refine .inr ⟨w, ⟨hr, fetch_some.mp hw⟩, ho, hb, ?_, rfl⟩
    rw [advance_run]
    split <;> simp [hr]
  · exact .inl rfl
  · exact .inl rfl

/-- A word stored into the next slot is what the next step fetches: the fetch reads memory as the store left
it (R41, R114). -/
theorem fetches_of_store_next_slot {s : State} {w v : Word} {i : Instr} (hf : s.Fetches w)
    (ha : addressBits s w = s.pc.toNat + 4) (hroom : s.pc.toNat + 8 ≤ s.memSize) :
    (advance ((latch i s).setMem (memWrite s.mem (addressBits s w).toNat v))).Fetches v := by
  obtain ⟨hpc, hrun⟩ := advanced_of_fetches
    (u := (latch i s).setMem (memWrite s.mem (addressBits s w).toNat v)) hf rfl rfl rfl
  have hslot : (addressBits s w).toNat = s.pc.toNat + 4 := by omega
  refine ⟨?_, ?_, ?_⟩
  · rw [hrun, if_neg (by omega)]
  · rw [hpc]
    exact hroom
  · rw [hpc, advance_mem, setMem_mem, hslot, memRead_memWrite_same]

/-! ## The obligations -/

/-- Settles O28: the sum is never reduced, and its overflows lie outside every admitted memory. -/
theorem addressIsComputedInTheIntegers : Obligations.AddressIsComputedInTheIntegers := by
  intro s rs1 imm
  refine ⟨?_, offset_zero imm, offset_sign imm, offset_zero_bounds imm, offset_sign_bounds imm,
    offset_zero_eq_sign, not_inBounds_of_overflow s rs1 imm⟩
  rw [effectiveAddress, sint32_eq]

/-- Settles O29, byte by byte of the word read. -/
theorem loadResultAndFrame : Obligations.LoadResultAndFrame := by
  intro rd rs1 imm s hlo hhi
  refine ⟨_, exec_load_inBounds ⟨hlo, hhi⟩, fun k hk => ?_, fun j hj => by simp [hj],
    ⟨rfl, rfl, rfl, rfl, rfl⟩, fun _ => rfl⟩
  rw [setReg_reg, if_pos rfl]
  exact byteOf_memRead s.mem _ hk

/-- Settles O30: each byte after the word write is inside or outside its four bytes. -/
theorem storeResultAndFrame : Obligations.StoreResultAndFrame := by
  intro rs1 rs2 imm s hlo hhi
  refine ⟨_, exec_store_inBounds ⟨hlo, hhi⟩, fun k hk => ?_, fun a ha => ?_, fun _ => rfl,
    ⟨rfl, rfl, rfl, rfl, rfl⟩⟩
  · rw [setMem_mem, read_memWrite, if_pos (by omega), Nat.add_sub_cancel_left, byteOf]
  · rw [setMem_mem, read_memWrite, if_neg (by omega)]

/-- Settles O31: LOAD and STORE share one fault and its frame. -/
theorem accessOutOfBoundsFaultsAndMovesNothing :
    Obligations.AccessOutOfBoundsFaultsAndMovesNothing := by
  intro i rs1 imm s hi hout
  exact ⟨_, exec_access_outOfBounds hi (not_inBounds_iff.mpr hout), ⟨_, rfl⟩, faultedOnly_raise _ s, rfl⟩

/-- Settles O32, from the two forms a LOAD word's step takes. -/
theorem loadWordLoads : Obligations.LoadWordLoads := by
  intro s w hf ho
  refine ⟨fun hin => ⟨_, step_load_inBounds hf ho hin, fun j => ?_, rfl,
    advanced_of_fetches hf rfl rfl rfl, rfl, rfl, fun _ => rfl⟩, fun hout => ?_⟩
  · simp only [advance_reg, setReg_reg, latch_reg, Fin.ext_iff, rdOf_val]
  · exact ⟨_, step_access_outOfBounds hf (decodeWord_load ho) (.inl ⟨_, rfl⟩)
      (not_inBounds_iff.mpr hout), ⟨_, rfl⟩, faultedOnly_raise_latch _ _ s, rfl⟩

/-- Settles O33, from the two forms a STORE word's step takes. -/
theorem storeWordStores : Obligations.StoreWordStores := by
  intro s w hf ho
  refine ⟨fun hin => ⟨_, step_store_inBounds hf ho hin, fun a => ?_, fun _ => rfl, rfl,
    advanced_of_fetches hf rfl rfl rfl, rfl, rfl⟩, fun hout => ?_⟩
  · obtain ⟨hlo, hhi⟩ := hin
    rw [advance_mem, setMem_mem, read_memWrite]
    split_ifs
    · omega
    · rfl
    · rfl
    · omega
  · exact ⟨_, step_access_outOfBounds hf (decodeWord_store ho) (.inr ⟨_, rfl⟩)
      (not_inBounds_iff.mpr hout), ⟨_, rfl⟩, faultedOnly_raise_latch _ _ s, rfl⟩

/-- Settles O52: the step after the store fetches what it stored, and runs it. -/
theorem storedWordRunsInTheNextSlot : Obligations.StoredWordRunsInTheNextSlot := by
  intro s w hf ho ha hroom
  have hin : InBounds s (addressBits s w) := by
    unfold InBounds
    omega
  have hnext := fetches_of_store_next_slot (v := s.reg (sourceBits w 10))
    (i := .store (sourceBits w 15) (sourceBits w 10) (immOf w)) hf ha hroom
  exact ⟨_, step_store_inBounds hf ho hin, hnext, fun i hd => step_of_fetches hnext hd⟩

/-- Settles O1: `setMem` leaves `pc` at 0, so the first fetch is at 0. -/
theorem resetLeavesTheSpecsValues : Obligations.ResetLeavesTheSpecsValues := by
  refine ⟨fun cfg => ⟨resetWith_reg cfg, rfl, rfl, rfl, rfl, fun _ => rfl, rfl, fun m hm => ?_⟩,
    rfl, rfl, rfl⟩
  exact fetch_some.mpr ⟨hm, rfl⟩

/-- Settles O48: the one write a step makes is a STORE's, and it leaves every byte outside its four. -/
theorem onlyAStoreChangesMemory : Obligations.OnlyAStoreChangesMemory := by
  intro s t a h hne
  obtain hm | ⟨w, ⟨-, -, rfl⟩, ho, ⟨hlo, hhi⟩, hrun, hm⟩ := step_mem_cases h
  · exact absurd (by rw [hm]) hne
  · rw [hm, read_memWrite] at hne
    split at hne
    · exact ⟨hrun, ho, by omega, by omega, by omega⟩
    · exact absurd rfl hne

/-- Settles O45, one case for each way a step can end: once the address and the opcode are named, what is left
is propositional. -/
theorem onlyTheseEventsStopTheCore : Obligations.OnlyTheseEventsStopTheCore := by
  intro s t h
  dsimp only
  simp only [← not_inBounds_iff]
  obtain ⟨hb, hrun, hfault⟩ | ⟨w, ⟨-, hb, rfl⟩, hevent⟩ := step_run_cases h
  · have hb' : ¬s.pc.toNat + 4 ≤ s.memSize := by omega
    simp [hb, hb', hrun, hfault]
  · have hb' : ¬s.memSize < s.pc.toNat + 4 := by omega
    generalize InBounds s (addressBits s (memRead s.mem s.pc.toNat)) = inside at hevent ⊢
    generalize opcodeBits (memRead s.mem s.pc.toNat) = op at hevent ⊢
    obtain ⟨ho, hrun, hfault⟩ | ⟨rfl, hrun⟩ | ⟨ho, hout, hrun, hfault⟩ | ⟨ho, hin, -, hrun⟩ := hevent
    · have hrow : op ∉ [0x03#7, 0x23#7, 0x30#7, 0x33#7] := fun hm => ho (List.mem_cons_of_mem _ hm)
      have hbrk : op ≠ 0#7 := by rintro rfl; simp at ho
      simp [-List.mem_cons, hb, hb', hrun, hfault, ho, hrow, hbrk]
    · simp [hb, hb', hrun]
    · obtain rfl | rfl := ho <;> simp [hb, hb', hrun, hfault, hout]
    · have hrow : op ∈ [0x00#7, 0x03#7, 0x23#7, 0x30#7, 0x33#7] := List.mem_cons_of_mem _ ho
      have hbrk : op ≠ 0#7 := by rintro rfl; simp at ho
      by_cases hend : s.memSize ≤ s.pc.toNat + 4 <;>
        simp [-List.mem_cons, hb, hb', hrun, ho, hrow, hbrk, hend, not_and_not_right.mpr hin]

end Sys2Proof.Machine

/-! SUPPORT and the proof that no register is hard-wired (R14). -/

namespace Sys2Proof.Machine

theorem setReg_reg_same (s : State) (i : RegIdx) (v : Word) : (s.setReg i v).reg i = v := by
  rw [setReg_reg, if_pos rfl]

/-- A LOAD that leaves CORE running had its address in bounds: the other way is the fault (R36, R88). -/
theorem exec_load_running {rd rs1 : RegIdx} {imm : BitVec 10} {s t : State}
    (h : exec (.load rd rs1 imm) s = .next t) (hr : t.run = .running) :
    t = s.setReg rd (memRead s.mem (effectiveAddress s rs1 imm).toNat) := by
  obtain ⟨-, hload⟩ | ⟨-, hfault⟩ := execLoad_cases rd rs1 imm s
  · exact Host.Outcome.next.inj (h.symm.trans hload)
  · cases h.symm.trans hfault
    simp at hr

/-- Settles O27: a register written reads back as what was written, x0 like any other, and what is stored
reads back from memory. -/
theorem registerZeroIsOrdinary : Obligations.RegisterZeroIsOrdinary := by
  intro s i t _ he ht
  refine ⟨?add, ?sub, ?load, setReg_reg_same s, fun imm => ?base, fun rs1 imm hin => ?store⟩
  case add =>
    rintro n rfl
    cases he
    exact setReg_reg_same s 0 _
  case sub =>
    rintro n rfl
    cases he
    exact setReg_reg_same s 0 _
  case load =>
    rintro rs1 imm rfl
    rw [exec_load_running he ht, setReg_reg_same]
  case base => rw [effectiveAddress, sint32_eq]
  case store => exact ⟨_, exec_store_inBounds hin, memRead_memWrite_same _ _ _⟩

end Sys2Proof.Machine

/-! SUPPORT and proofs for the encoding: the bits the extractor picks, the decoder's table by conventional bits,
the fields two words share under a mask, and ALU steps that differ in a register they do not read. -/

namespace Sys2Proof.Machine

/-! ## The extractor and the fields (R47 to R53) -/

theorem field_lt (w : Word) (s e : Nat) (h : s ≤ e ∧ e ≤ 32) : field w s e h < 2 ^ (e - s) := by
  rw [field_eq_extractLsb']
  exact BitVec.isLt _

/-- Bit `k` of a field counts from the field's low end, the word's MSB-first numbers from the top (R8). -/
theorem field_testBit (w : Word) (s e : Nat) (h : s ≤ e ∧ e ≤ 32) {k : Nat} (hk : k < e - s) :
    (field w s e h).testBit k = w.getMsbD (e - 1 - k) := by
  have hpos : 32 - 1 - (e - 1 - k) = 32 - e + k := by omega
  have hin : e - 1 - k < 32 := by omega
  rw [field_eq_extractLsb', BitVec.testBit_toNat, BitVec.getLsbD_extractLsb', BitVec.getMsbD, hpos]
  simp [hk, hin]

/-- Settles O12: a field is a slice of the word, so its bound and its bits are the slice's. -/
theorem extractorNumbersBitsFromTheTop : Obligations.ExtractorNumbersBitsFromTheTop := by
  intro w s e h
  refine ⟨rfl, field_lt w s e h, ?whole, ?empty, fun k hk => field_testBit w s e h hk⟩
  case whole => rw [field_eq_extractLsb', Nat.sub_self, Nat.sub_zero, BitVec.extractLsb'_eq_self]
  case empty =>
    have hlt := field_lt w s s ⟨Nat.le_refl s, Nat.le_trans h.1 h.2⟩
    rw [Nat.sub_self] at hlt
    exact Nat.lt_one_iff.mp hlt

/-- Settles O13: each field of the model is the slice the spec names. -/
theorem fieldsAreTheSpecsBits : Obligations.FieldsAreTheSpecsBits := fun w =>
  ⟨opfOf_eq w, rdOf_bits8to11 w, rdOf_bits7to12 w, rs1Of_eq w, rs2Of_eq w, immOf_eq w⟩

/-! ## The decoder's table (R55, R57) -/

theorem eq_rdOf_of_destBits {rdf : RdField} {w : Word} {rd : RegIdx} (h : rd.val = destBits rdf w) :
    rd = rdOf rdf w := Fin.ext (h.trans (rdOf_val rdf w).symm)

/-- Settles O14: a decoded instruction comes from one of the five rows, and each row decodes to its own. -/
theorem decoderFollowsTheTable : Obligations.DecoderFollowsTheTable := by
  intro rdf w i
  constructor
  · intro h
    rw [← rs1Of_eq, ← immOf_eq]
    obtain ⟨ho, rfl⟩ | ⟨ho, rfl⟩ | ⟨ho, rfl⟩ | ⟨ho, rfl⟩ | ⟨ho, rfl⟩ := decodeWord_cases h
    · exact .inl ⟨ho, _, rdOf_val rdf w, rfl⟩
    · exact .inr (.inl ⟨ho, _, rdOf_val rdf w, rfl⟩)
    · exact .inr (.inr (.inl ⟨ho, _, rdOf_val rdf w, rfl⟩))
    · exact .inr (.inr (.inr (.inl ⟨ho, rfl⟩)))
    · exact .inr (.inr (.inr (.inr ⟨ho, rfl⟩)))
  · rw [← rs1Of_eq, ← immOf_eq]
    rintro (⟨ho, rd, hrd, rfl⟩ | ⟨ho, rd, hrd, rfl⟩ | ⟨ho, rd, hrd, rfl⟩ | ⟨ho, rfl⟩ | ⟨ho, rfl⟩)
    · rw [decodeWord_add ho, eq_rdOf_of_destBits hrd]
    · rw [decodeWord_sub ho, eq_rdOf_of_destBits hrd]
    · rw [decodeWord_load ho, eq_rdOf_of_destBits hrd]
    · exact decodeWord_store ho
    · exact decodeWord_brk ho

/-! ## Words that agree under a mask (R57) -/

section Masked

variable {rdf : RdField} {v w m : Word}

/-- Words that agree under a mask agree in every slice the mask covers. -/
theorem extractLsb'_eq_of_masked (h : v &&& m = w &&& m) (lo len : Nat)
    (hm : m.extractLsb' lo len = BitVec.allOnes len) :
    v.extractLsb' lo len = w.extractLsb' lo len := by
  have hs := congrArg (BitVec.extractLsb' lo len) h
  rwa [BitVec.extractLsb'_and, BitVec.extractLsb'_and, hm, BitVec.and_allOnes, BitVec.and_allOnes] at hs

theorem opcodeBits_eq_of_masked (h : v &&& m = w &&& m) (hm : opcodeBits m = BitVec.allOnes 7) :
    opcodeBits v = opcodeBits w := extractLsb'_eq_of_masked h 25 7 hm

theorem rs1Of_eq_of_masked (h : v &&& m = w &&& m) (hm : rs1Of m = BitVec.allOnes 5) :
    rs1Of v = rs1Of w := by
  rw [rs1Of_eq] at hm ⊢
  rw [rs1Of_eq]
  exact extractLsb'_eq_of_masked h 15 5 hm

theorem sourceBits_eq_of_masked (h : v &&& m = w &&& m) (lo : Nat)
    (hm : m.extractLsb' lo 5 = BitVec.allOnes 5) : sourceBits v lo = sourceBits w lo :=
  Fin.ext (congrArg BitVec.toNat (extractLsb'_eq_of_masked h lo 5 hm))

theorem immOf_eq_of_masked (h : v &&& m = w &&& m) (hm : m.extractLsb' 0 10 = BitVec.allOnes 10) :
    immOf v = immOf w := by
  rw [immOf_eq, immOf_eq]
  exact extractLsb'_eq_of_masked h 0 10 hm

/-- A mask covers the rd field when, read as a word, it names the highest register the field can. -/
theorem rdOf_eq_of_masked (h : v &&& m = w &&& m) (hm : destBits rdf m + 1 = rdf.count) :
    rdOf rdf v = rdOf rdf w := by
  refine Fin.ext ?_
  rw [rdOf_val, rdOf_val]
  cases rdf with
  | bits8to11 =>
    have hones : m.extractLsb' 21 3 = BitVec.allOnes 3 :=
      BitVec.eq_of_toNat_eq (Nat.succ.inj hm)
    exact congrArg BitVec.toNat (extractLsb'_eq_of_masked h 21 3 hones)
  | bits7to12 =>
    have hones : m.extractLsb' 20 5 = BitVec.allOnes 5 :=
      BitVec.eq_of_toNat_eq (Nat.succ.inj hm)
    exact congrArg BitVec.toNat (extractLsb'_eq_of_masked h 20 5 hones)

end Masked

/-- Settles O16, row by row: the opcode field lies under every mask, so both words are on the same row, and the
row's operands lie under its mask. -/
theorem ignoredBitsNeverMatter : Obligations.IgnoredBitsNeverMatter := by
  intro rdf v w mask h
  subst mask
  split_ifs at h with halu hload hstore
  · have ho := opcodeBits_eq_of_masked h (by cases rdf <;> decide)
    have hrd := rdOf_eq_of_masked (rdf := rdf) h (by cases rdf <;> decide)
    have hn := rs1Of_eq_of_masked h (by cases rdf <;> decide)
    obtain hadd | hsub := halu
    · rw [decodeWord_add hadd, decodeWord_add (ho ▸ hadd), hrd, hn]
    · rw [decodeWord_sub hsub, decodeWord_sub (ho ▸ hsub), hrd, hn]
  · have ho := opcodeBits_eq_of_masked h (by cases rdf <;> decide)
    have hrd := rdOf_eq_of_masked (rdf := rdf) h (by cases rdf <;> decide)
    have hbase := sourceBits_eq_of_masked h 15 (by cases rdf <;> decide)
    have himm := immOf_eq_of_masked h (by cases rdf <;> decide)
    rw [decodeWord_load hload, decodeWord_load (ho ▸ hload), hrd, hbase, himm]
  · have ho := opcodeBits_eq_of_masked h (by decide)
    have hbase := sourceBits_eq_of_masked h 15 (by decide)
    have hsrc := sourceBits_eq_of_masked h 10 (by decide)
    have himm := immOf_eq_of_masked h (by decide)
    rw [decodeWord_store hstore, decodeWord_store (ho ▸ hstore), hbase, hsrc, himm]
  · have ho := opcodeBits_eq_of_masked h (by decide)
    by_cases hbrk : opcodeBits v = 0x00#7
    · rw [decodeWord_brk hbrk, decodeWord_brk (ho ▸ hbrk)]
    · obtain ⟨hadd, hsub⟩ := not_or.mp halu
      have hrow : opcodeBits v ∉ [0x00#7, 0x03#7, 0x23#7, 0x30#7, 0x33#7] := by
        simp [hbrk, hload, hstore, hsub, hadd]
      rw [decodeWord_eq_none_iff.mpr hrow, decodeWord_eq_none_iff.mpr (ho ▸ hrow)]

/-! ## What ADD and SUB read (R59, R77) -/

/-- An instruction whose result is a function of its destination's old value alone gives the same result
whatever any other register holds, and leaves that register. -/
theorem step_ignores_other_registers {s : State} {w : Word} {i : Instr} {rd j : RegIdx} {f : Word → Word}
    (hexec : ∀ s, exec i s = .next (s.setReg rd (f (s.reg rd)))) (hf : s.Fetches w)
    (hd : decodeWord s.cfg.rdField w = some i) (hj : j ≠ rd) (v : Word) :
    ∃ t u, step s = .next t ∧ step (s.setReg j v) = .next u ∧
      t.reg rd = f (s.reg rd) ∧ u.reg rd = t.reg rd ∧ u.reg j = v := by
  have hf' : (s.setReg j v).Fetches w := hf
  refine ⟨_, _, step_completes hf hd (hexec _) hf.1, step_completes hf' hd (hexec _) hf.1, ?_, ?_, ?_⟩
  · simp
  · simp [hj.symm]
  · simp [hj]

/-- Settles O25: stage 4 of ADD and SUB reads its destination and the field's number, and no other register. -/
theorem aluOperandIsTheFieldNumber : Obligations.AluOperandIsTheFieldNumber := by
  intro s w rd j v hf hrd hj
  have table := decoderFollowsTheTable s.cfg.rdField w
  refine ⟨fun ho => ?add, fun ho => ?sub⟩
  case add =>
    have hd := (table (.add rd (w.extractLsb' 15 5))).mpr (.inl ⟨ho, rd, hrd, rfl⟩)
    exact step_ignores_other_registers (f := (aluAdd · _)) (fun _ => rfl) hf hd hj v
  case sub =>
    have hd := (table (.sub rd (w.extractLsb' 15 5))).mpr (.inr (.inl ⟨ho, rd, hrd, rfl⟩))
    exact step_ignores_other_registers (f := (aluSub · _)) (fun _ => rfl) hf hd hj v

end Sys2Proof.Machine

/-! SUPPORT and proofs for the engine: the decoder on the bytes at `pc`, stage 5 of a running core, what a step
does to `pc` and the fault record, then the obligations. -/

namespace Sys2Proof.Machine

/-! ## The decoder on bytes (R30, R46) -/

/-- Four bytes decode to an instruction exactly when their word does, whatever follows them. -/
theorem decodeBytes_eq_ok_iff {rdf : RdField} {b0 b1 b2 b3 : Byte} {rest : List Byte} {i : Instr} :
    decodeBytes rdf (b0 :: b1 :: b2 :: b3 :: rest) = .ok i ↔
      decodeWord rdf (wordOfBytes b0 b1 b2 b3) = some i := by
  rw [decodeBytes]
  cases decodeWord rdf (wordOfBytes b0 b1 b2 b3) <;> simp

/-- BREAK is the one decoded instruction whose opcode field is zero (R55). -/
theorem eq_brk_iff_of_decodeWord {rdf : RdField} {w : Word} {i : Instr} (h : decodeWord rdf w = some i) :
    i = .brk ↔ opcodeBits w = 0 := by
  obtain ⟨ho, rfl⟩ | ⟨ho, rfl⟩ | ⟨ho, rfl⟩ | ⟨ho, rfl⟩ | ⟨ho, rfl⟩ := decodeWord_cases h <;> simp [ho]

/-! ## The program counter and the fault record over a step (R68, R69, R71) -/

/-- Stage 5 of a running core, its run state written out (R68, R69). -/
theorem advance_of_running {t : State} (h : t.run = .running) :
    advance t = { t with pc := t.pc + 4,
                         run := if t.memSize ≤ (t.pc + 4).toNat then .halted else .running } := by
  rw [advance, h]

/-- A step faults and keeps `pc`, or it raises no fault, and then either a BREAK keeps `pc` or any other
instruction advances it. -/
theorem step_pc_cases {s t : State} (h : step s = .next t) :
    (t.run = .faulted ∧ t.pc = s.pc) ∨
    ∃ w, s.Fetches w ∧ t.fault = s.fault ∧
      ((opcodeBits w = 0 ∧ t.run = .halted ∧ t.pc = s.pc) ∨ (opcodeBits w ≠ 0 ∧ Advanced s t)) := by
  obtain ⟨hr, ⟨-, rfl⟩ | ⟨_, -, -, rfl⟩ | ⟨w, i, hw, hd, he⟩⟩ := step_cases h
  · exact .inl ⟨rfl, rfl⟩
  · exact .inl ⟨rfl, rfl⟩
  have hf : s.Fetches w := ⟨hr, fetch_some.mp hw⟩
  have hbrk := eq_brk_iff_of_decodeWord hd
  obtain ⟨_, _, hi, rfl⟩ | ⟨_, _, _, rfl, -, rfl⟩ | ⟨hi, rfl⟩ | ⟨_, _, -, -, rfl⟩ :=
    endStep_exec_cases hr he
  · have hne : i ≠ .brk := by
      rintro rfl
      simp at hi
    exact .inr ⟨w, hf, rfl, .inr ⟨mt hbrk.mpr hne, advanced_of_fetches hf rfl rfl rfl⟩⟩
  · exact .inr ⟨w, hf, rfl, .inr ⟨mt hbrk.mpr (by simp), advanced_of_fetches hf rfl rfl rfl⟩⟩
  · exact .inr ⟨w, hf, rfl, .inl ⟨hbrk.mp hi, rfl, rfl⟩⟩
  · exact .inl ⟨rfl, rfl⟩

/-! ## The obligations -/

/-- Settles O42: in each of the three ways a step can end, the clauses for the other two do not apply. -/
theorem programCounterMovesOnlyByFour : Obligations.ProgramCounterMovesOnlyByFour := by
  intro s t h
  obtain ⟨hrun, hpc⟩ | ⟨w, ⟨-, -, rfl⟩, -, ⟨ho, -, hpc⟩ | ⟨ho, hpc, hrun⟩⟩ := step_pc_cases h
  · exact ⟨fun _ => hpc, fun hn => absurd hrun hn, fun hn => absurd hrun hn⟩
  · exact ⟨fun _ => hpc, fun _ _ => hpc, fun _ hne => absurd ho hne⟩
  · have hnf : t.run ≠ .faulted := by
      rw [hrun]
      split <;> decide
    exact ⟨fun hfault => absurd hfault hnf, fun _ hz => absurd hz ho, fun _ _ => hpc⟩

/-- Settles O43: a step that moved `pc` ended in stage 5, whose halt test is on the new `pc`. -/
theorem leavingMemoryHaltsInTheSameStep : Obligations.LeavingMemoryHaltsInTheSameStep := by
  intro s t h hmoved
  obtain ⟨-, hpc⟩ | ⟨w, -, hfault, ⟨-, -, hpc⟩ | ⟨-, hpc, hrun⟩⟩ := step_pc_cases h
  · rw [hpc] at hmoved
    omega
  · rw [hpc] at hmoved
    omega
  · rw [hrun, hpc]
    by_cases hout : s.memSize ≤ s.pc.toNat + 4
    · simp [hfault, hout]
    · simp [hfault, hout, Nat.lt_of_not_le hout]

/-- Settles O44: a next state comes only from RUNNING, and RUNNING always gives one. -/
theorem stepIsEnabledExactlyWhenRunning : Obligations.StepIsEnabledExactlyWhenRunning := by
  refine fun s => ⟨⟨?_, step_running⟩, step_halted, step_faulted⟩
  rintro ⟨t, h⟩
  obtain ⟨hr, -⟩ := step_cases h
  exact hr

/-- Settles O38: the four bytes are the word fetched, and the end of the step is stage 5 written out. -/
theorem stepRunsTheDecodedInstruction : Obligations.StepRunsTheDecodedInstruction := by
  intro s i rest hr hb hdec
  have hstep := step_of_fetches ⟨hr, hb, rfl⟩ (decodeBytes_eq_ok_iff.mp hdec)
  have hlatch : { s with opc := i.opcode } = latch i s := rfl
  rw [hstep, hlatch]
  cases exec i (latch i s) with
  | next t =>
    by_cases ht : t.run = .running
    · simp only [endStep_next_running ht, if_pos ht, advance_of_running ht]
    · simp only [endStep_next_stopped ht, if_neg ht]
  | fault f => rfl
  | refused r => rfl

end Sys2Proof.Machine

/-! SUPPORT and proofs for ADD and SUB: their results in the integers, the frame of a register write, the step of
an instruction that rewrites its destination, then the obligations. -/

namespace Sys2Proof.Machine

/-! ## The results modulo 2^32 (R74 to R76) -/

/-- The number of the rs1 field is extended with zeros, so it is added as it stands. -/
theorem toNat_aluAdd (a : Word) (n : BitVec 5) :
    ((aluAdd a n).toNat : Int) = (a.toNat + n.toNat : Int) % 2 ^ 32 := by
  have hn : (n.setWidth 32).toNat = n.toNat := BitVec.toNat_setWidth_of_le (by decide)
  rw [aluAdd, BitVec.toNat_add, hn]
  omega

/-- A difference below zero comes round from the top, as the integers' nonnegative remainder does. -/
theorem toNat_aluSub (a : Word) (n : BitVec 5) :
    ((aluSub a n).toNat : Int) = (a.toNat - n.toNat : Int) % 2 ^ 32 := by
  have hn : (n.setWidth 32).toNat = n.toNat := BitVec.toNat_setWidth_of_le (by decide)
  have hlt := n.isLt
  rw [aluSub, BitVec.toNat_sub, hn]
  omega

/-! ## Stage 4 and the frame of a register write -/

theorem exec_add (rd : RegIdx) (n : BitVec 5) (s : State) :
    exec (.add rd n) s = .next (s.setReg rd (aluAdd (s.reg rd) n)) := rfl

theorem exec_sub (rd : RegIdx) (n : BitVec 5) (s : State) :
    exec (.sub rd n) s = .next (s.setReg rd (aluSub (s.reg rd) n)) := rfl

theorem setReg_frame (s : State) (rd : RegIdx) (v : Word) :
    (∀ j, j ≠ rd → (s.setReg rd v).reg j = s.reg j) ∧ SameControl s (s.setReg rd v) ∧
      SameMemory s (s.setReg rd v) :=
  ⟨fun j hj => by rw [setReg_reg, if_neg hj], ⟨rfl, rfl, rfl, rfl, rfl⟩, fun _ => rfl⟩

/-! ## The step of an instruction that rewrites its destination (R67, R68) -/

/-- Such an instruction's step applies its function to the register that the rd bits name, leaves every other
register and memory, and ends in stage 5. -/
theorem step_rewrites_destination {s : State} {w : Word} {i : Instr} {f : Word → Word}
    (hexec : ∀ s' : State, exec i s' =
      .next (s'.setReg (rdOf s.cfg.rdField w) (f (s'.reg (rdOf s.cfg.rdField w)))))
    (hf : s.Fetches w) (hd : decodeWord s.cfg.rdField w = some i) :
    ∃ t, step s = .next t ∧
      (∀ j : RegIdx, t.reg j = if j.val = destBits s.cfg.rdField w then f (s.reg j) else s.reg j) ∧
      t.opc = i.opcode ∧ Advanced s t ∧ t.fault = s.fault ∧ t.cfg = s.cfg ∧ SameMemory s t := by
  refine ⟨_, step_completes hf hd (hexec _) hf.1, fun j => ?_, rfl, advanced_of_fetches hf rfl rfl rfl,
    rfl, rfl, fun _ => rfl⟩
  rw [advance_reg, setReg_reg, latch_reg, latch_reg, ← rdOf_val]
  by_cases hj : j = rdOf s.cfg.rdField w
  · simp [hj]
  · simp [hj, Fin.ext_iff.not.mp hj]

/-! ## The obligations -/

/-- Settles O22: stage 4 of each is one register write, which frames all the rest. -/
theorem addAndSubResultAndFrame : Obligations.AddAndSubResultAndFrame := by
  intro rd n s
  refine ⟨⟨_, exec_add rd n s, ?add, setReg_frame s rd _⟩, _, exec_sub rd n s, ?sub, setReg_frame s rd _⟩
  case add => rw [setReg_reg_same, toNat_aluAdd]
  case sub => rw [setReg_reg_same, toNat_aluSub]

/-- Settles O23: an ADD word rewrites its destination by `aluAdd`. -/
theorem addWordAddsItsNumber : Obligations.AddWordAddsItsNumber := by
  intro s w hf ho
  obtain ⟨t, hstep, hreg, hframe⟩ :=
    step_rewrites_destination (f := (aluAdd · (rs1Of w))) (exec_add _ _) hf (decodeWord_add ho)
  refine ⟨t, hstep, fun j => ?_, hframe⟩
  rw [hreg, ← rs1Of_eq, ← toNat_aluAdd]
  split <;> rfl

/-- Settles O24: a SUB word rewrites its destination by `aluSub`. -/
theorem subWordSubtractsItsNumber : Obligations.SubWordSubtractsItsNumber := by
  intro s w hf ho
  obtain ⟨t, hstep, hreg, hframe⟩ :=
    step_rewrites_destination (f := (aluSub · (rs1Of w))) (exec_sub _ _) hf (decodeWord_sub ho)
  refine ⟨t, hstep, fun j => ?_, hframe⟩
  rw [hreg, ← rs1Of_eq, ← toNat_aluSub]
  split <;> rfl

end Sys2Proof.Machine

/-! SUPPORT and proofs for BREAK: the frame of a halt, the step of a BREAK word, then the obligations. -/

namespace Sys2Proof.Machine

theorem exec_brk (s : State) : exec .brk s = .next (halt s) := rfl

theorem halt_frame (s : State) :
    (halt s).run = .halted ∧ (halt s).pc = s.pc ∧ (halt s).opc = s.opc ∧ (halt s).fault = s.fault ∧
      (halt s).cfg = s.cfg ∧ SameRegisters s (halt s) ∧ SameMemory s (halt s) :=
  ⟨rfl, rfl, rfl, rfl, rfl, fun _ => rfl, fun _ => rfl⟩

/-- The step of a BREAK word ends with stage 4, so `pc` is not advanced (R83). -/
theorem step_brk {s : State} {w : Word} (hf : s.Fetches w) (ho : opcodeBits w = 0x00#7) :
    step s = .next (halt (latch .brk s)) :=
  step_stops hf (decodeWord_brk ho) (exec_brk _) (by simp)

/-! ## The obligations -/

/-- Settles O36: the step halts the latched state, and a halted core takes no step. -/
theorem breakWordHalts : Obligations.BreakWordHalts := by
  intro s w hf ho
  obtain ⟨hrun, hpc, hopc, hfault, hcfg, hregs, hmem⟩ := halt_frame (latch .brk s)
  refine ⟨_, step_brk hf ho, hrun, hopc, hpc, hfault, hcfg, hregs, hmem, fun u hu => ?_⟩
  rw [step_halted hrun] at hu
  cases hu

/-- Settles O35: stage 4 of BREAK is the halt, which frames all the rest. -/
theorem breakHaltsAndChangesNothingElse : Obligations.BreakHaltsAndChangesNothingElse :=
  fun s => ⟨_, exec_brk s, halt_frame s⟩

end Sys2Proof.Machine

/-! SUPPORT and proofs for the round trip of encoder and decoder: the fields of an encoded word, the word a row's
fields are packed back into, the opcodes off the table and the bytes of a word, then the obligations. -/

namespace Sys2Proof.Machine

/-! ## The fields of an encoded word (R49 to R53) -/

theorem destBits_placeRd {rdf : RdField} {rd : RegIdx} (h : rd.val < rdf.count) :
    destBits rdf (placeRd rdf rd) = rd.val := by
  cases rdf <;> simp only [RdField.count] at h <;>
    simp only [destBits, placeRd, BitVec.extractLsb'_toNat, BitVec.toNat_shiftLeft, BitVec.toNat_ofNat,
      Nat.shiftLeft_eq, Nat.shiftRight_eq_div_pow] <;>
    omega

section Pack

variable {rdf : RdField} {opf : BitVec 7} {rd : RegIdx} {rdBits : Word} {rs1 rs2 : BitVec 5}
  {imm : BitVec 10}

theorem rdOf_pack (h : rd.val < rdf.count) :
    rdOf rdf (pack opf (placeRd rdf rd) rs1 rs2 imm) = rd := by
  obtain ⟨hlo, -⟩ := placeRd_bits rdf rd h
  obtain ⟨h7to12, h8to11, -⟩ := pack_slices opf (placeRd rdf rd) rs1 rs2 imm hlo
  have hplace := destBits_placeRd h
  refine Fin.ext ?_
  rw [rdOf_val, ← hplace]
  cases rdf with
  | bits8to11 => exact congrArg BitVec.toNat h8to11
  | bits7to12 => exact congrArg BitVec.toNat h7to12

theorem rs1Of_pack (hlo : ∀ j, j < 20 → rdBits.getLsbD j = false) :
    rs1Of (pack opf rdBits rs1 rs2 imm) = rs1 := by
  obtain ⟨-, -, hrs1, -⟩ := pack_slices opf rdBits rs1 rs2 imm hlo
  rw [rs1Of_eq, hrs1]

theorem rs2Of_pack (hlo : ∀ j, j < 20 → rdBits.getLsbD j = false) :
    rs2Of (pack opf rdBits rs1 rs2 imm) = rs2 := by
  obtain ⟨-, -, -, hrs2, -⟩ := pack_slices opf rdBits rs1 rs2 imm hlo
  rw [rs2Of_eq, hrs2]

theorem immOf_pack (hlo : ∀ j, j < 20 → rdBits.getLsbD j = false) :
    immOf (pack opf rdBits rs1 rs2 imm) = imm := by
  obtain ⟨-, -, -, -, himm⟩ := pack_slices opf rdBits rs1 rs2 imm hlo
  rw [immOf_eq, himm]

end Pack

/-- A register's five-bit number names it (R60). -/
theorem regOf_ofNat (r : RegIdx) : regOf (BitVec.ofNat 5 r.val) = r :=
  Fin.ext (Nat.mod_eq_of_lt r.isLt)

theorem ofNat_regOf (b : BitVec 5) : BitVec.ofNat 5 (regOf b).val = b := by
  rw [regOf_val, BitVec.ofNat_toNat, BitVec.setWidth_eq]

theorem opcodeBits_encode {rdf : RdField} {i : Instr} (h : i.wf rdf = true) :
    opcodeBits (encode rdf i) = i.opf := by
  rw [← opfOf_eq_opcodeBits]
  cases i with
  | add rd n => exact Laws.OpcodeField.add rd n rdf h
  | sub rd n => exact Laws.OpcodeField.sub rd n rdf h
  | load rd rs1 imm => exact Laws.OpcodeField.load rd rs1 imm rdf h
  | store rs1 rs2 imm => exact Laws.OpcodeField.store rs1 rs2 imm rdf h
  | brk => exact Laws.OpcodeField.brk rdf h

/-- R54: a well-formed instruction is what its word decodes to, row by row of the table. -/
theorem decodeWord_encode {rdf : RdField} {i : Instr} (h : i.wf rdf = true) :
    decodeWord rdf (encode rdf i) = some i := by
  have ho := opcodeBits_encode h
  have hzero : ∀ j, j < 20 → (0 : Word).getLsbD j = false := by simp
  cases i with
  | add rd n =>
    have hrd : rd.val < rdf.count := by simpa [Instr.wf] using h
    obtain ⟨hlo, -⟩ := placeRd_bits rdf rd hrd
    rw [decodeWord_add ho, encode, rdOf_pack hrd, rs1Of_pack hlo]
  | sub rd n =>
    have hrd : rd.val < rdf.count := by simpa [Instr.wf] using h
    obtain ⟨hlo, -⟩ := placeRd_bits rdf rd hrd
    rw [decodeWord_sub ho, encode, rdOf_pack hrd, rs1Of_pack hlo]
  | load rd rs1 imm =>
    have hrd : rd.val < rdf.count := by simpa [Instr.wf] using h
    obtain ⟨hlo, -⟩ := placeRd_bits rdf rd hrd
    rw [decodeWord_load ho, ← regOf_rs1Of, encode, rdOf_pack hrd, rs1Of_pack hlo, immOf_pack hlo,
      regOf_ofNat]
  | store rs1 rs2 imm =>
    rw [decodeWord_store ho, ← regOf_rs1Of, ← regOf_rs2Of, encode, rs1Of_pack hzero, rs2Of_pack hzero,
      immOf_pack hzero, regOf_ofNat, regOf_ofNat]
  | brk => exact decodeWord_brk ho

/-- The bytes of a word in address order decode as the word does, whatever follows them (R30, R46). -/
theorem decodeBytes_bytesOf {rdf : RdField} {w : Word} {rest : List Byte} {i : Instr} :
    decodeBytes rdf (bytesOf w ++ rest) = .ok i ↔ decodeWord rdf w = some i := by
  have hbytes : bytesOf w ++ rest =
      byteOf w 0 :: byteOf w 1 :: byteOf w 2 :: byteOf w 3 :: rest := rfl
  rw [hbytes, decodeBytes_eq_ok_iff, wordOfBytes_byteOf]

/-! ## The fields of a word packed again (R54, R57) -/

/-- The mask of `len` bits from bit `lo` up. -/
def slotMask (lo len : Nat) : Word := (BitVec.allOnes len).setWidth 32 <<< lo

/-- A slice put back in its place is the word under the mask of its bits. -/
theorem setWidth_extractLsb'_shiftLeft (w : Word) (lo len : Nat) :
    (w.extractLsb' lo len).setWidth 32 <<< lo = w &&& slotMask lo len := by
  ext j hj
  by_cases hlo : j < lo
  · simp [slotMask, hlo]
  · have hpos : lo + (j - lo) = j := by omega
    simp [slotMask, hlo, hpos, BitVec.getLsbD_eq_getElem hj, Bool.and_comm]

/-- The mask of the rd field (R50). -/
def rdMask : RdField → Word
  | .bits8to11 => slotMask 21 3
  | .bits7to12 => slotMask 20 5

theorem placeRd_rdOf (rdf : RdField) (w : Word) : placeRd rdf (rdOf rdf w) = w &&& rdMask rdf := by
  cases rdf with
  | bits8to11 =>
    rw [placeRd, rdOf_bits8to11, BitVec.ofNat_toNat]
    exact setWidth_extractLsb'_shiftLeft w 21 3
  | bits7to12 =>
    rw [placeRd, rdOf_bits7to12, BitVec.ofNat_toNat]
    exact setWidth_extractLsb'_shiftLeft w 20 5

theorem rs1Of_shiftLeft (w : Word) : (rs1Of w).setWidth 32 <<< 15 = w &&& slotMask 15 5 := by
  rw [rs1Of_eq, setWidth_extractLsb'_shiftLeft]

theorem rs2Of_shiftLeft (w : Word) : (rs2Of w).setWidth 32 <<< 10 = w &&& slotMask 10 5 := by
  rw [rs2Of_eq, setWidth_extractLsb'_shiftLeft]

theorem setWidth_immOf (w : Word) : (immOf w).setWidth 32 = w &&& slotMask 0 10 := by
  rw [immOf_eq, ← setWidth_extractLsb'_shiftLeft, BitVec.shiftLeft_zero]

/-- The masks of the fields `pack` takes, the opcode field's always among them. -/
def packMask (rd rs1 rs2 imm : Word) : Word := slotMask 25 7 ||| rd ||| rs1 ||| rs2 ||| imm

/-- Fields that are parts of one word pack to that word under the masks of the parts. -/
theorem pack_masked {w rdBits mRd mRs1 mRs2 mImm : Word} {opf : BitVec 7} {rs1 rs2 : BitVec 5}
    {imm : BitVec 10} (ho : opcodeBits w = opf) (hrd : rdBits = w &&& mRd)
    (hrs1 : rs1.setWidth 32 <<< 15 = w &&& mRs1) (hrs2 : rs2.setWidth 32 <<< 10 = w &&& mRs2)
    (himm : imm.setWidth 32 = w &&& mImm) :
    pack opf rdBits rs1 rs2 imm = w &&& packMask mRd mRs1 mRs2 mImm := by
  rw [pack, ← ho, opcodeBits, setWidth_extractLsb'_shiftLeft, hrd, hrs1, hrs2, himm]
  simp only [packMask, BitVec.and_or_distrib_left]

/-- The bits each row of the table uses: its opcode field and its operands (R57). -/
def usedBits (rdf : RdField) : Instr → Word
  | .add _ _ => packMask (rdMask rdf) (slotMask 15 5) 0 0
  | .sub _ _ => packMask (rdMask rdf) (slotMask 15 5) 0 0
  | .load _ _ _ => packMask (rdMask rdf) (slotMask 15 5) 0 (slotMask 0 10)
  | .store _ _ _ => packMask 0 (slotMask 15 5) (slotMask 10 5) (slotMask 0 10)
  | .brk => packMask 0 0 0 0

/-- R57: encoding what was decoded clears the bits its row does not use and no other. -/
theorem encode_of_decodeWord {rdf : RdField} {w : Word} {i : Instr} (h : decodeWord rdf w = some i) :
    encode rdf i = w &&& usedBits rdf i := by
  have hrd := placeRd_rdOf rdf w
  have hrs1 := rs1Of_shiftLeft w
  have hrs2 := rs2Of_shiftLeft w
  have himm := setWidth_immOf w
  obtain ⟨ho, rfl⟩ | ⟨ho, rfl⟩ | ⟨ho, rfl⟩ | ⟨ho, rfl⟩ | ⟨ho, rfl⟩ := decodeWord_cases h
  · exact pack_masked ho hrd hrs1 (by simp) (by simp)
  · exact pack_masked ho hrd hrs1 (by simp) (by simp)
  · rw [encode, ← regOf_rs1Of, ofNat_regOf]
    exact pack_masked ho hrd hrs1 (by simp) himm
  · rw [encode, ← regOf_rs1Of, ← regOf_rs2Of, ofNat_regOf, ofNat_regOf]
    exact pack_masked ho (by simp) hrs1 hrs2 himm
  · exact pack_masked ho (by simp) (by simp) (by simp) (by simp)

/-! ## The bytes of an instruction (R30, R31, R46) -/

/-- A word is the sum of its bytes, each at its weight (R30). -/
theorem toNat_eq_sum_byteOf (v : Word) :
    v.toNat = (byteOf v 0).toNat + 2 ^ 8 * (byteOf v 1).toNat + 2 ^ 16 * (byteOf v 2).toNat +
      2 ^ 24 * (byteOf v 3).toNat := by
  have hv := v.isLt
  simp only [byteOf, BitVec.extractLsb'_toNat, Nat.shiftRight_eq_div_pow]
  omega

/-- The opcode field lies in the byte at the highest address (R31). -/
theorem opfOf_eq_byteOf (w : Word) : opfOf w = (byteOf w 3).extractLsb' 1 7 := by
  rw [opfOf_eq]
  ext j hj
  have hin : 1 + j < 8 := by omega
  have hpos : 24 + (1 + j) = 25 + j := by omega
  simp [byteOf, hin, hpos]

/-- Fewer than four bytes are cut off (R46). -/
theorem decodeBytes_of_short {rdf : RdField} {bs : List Byte} (h : bs.length < 4) :
    decodeBytes rdf bs = .error (.truncated bs.length) := by
  match bs, h with
  | [], _ => rfl
  | [_], _ => rfl
  | [_, _], _ => rfl
  | [_, _, _], _ => rfl

/-! ## The obligations -/

/-- Settles O17: the word decodes back by the table, and its bytes are the word. -/
theorem decodeUndoesEncode : Obligations.DecodeUndoesEncode := fun _ _ h =>
  ⟨decodeWord_encode h, fun _ => decodeBytes_bytesOf.mpr (decodeWord_encode h)⟩

/-- Settles O18: the bits each row uses are the statement's masks. -/
theorem encodeUndoesDecode : Obligations.EncodeUndoesDecode := by
  intro rdf w i h
  refine ⟨decodeWord_wf h, ?_⟩
  rw [encode_of_decodeWord h]
  cases i <;> cases rdf <;> rfl

/-- Settles O15: the field of a word built from `v` is `v`, so the count is over the values off the table. -/
theorem otherOpcodeValuesAreUnknown : Obligations.OtherOpcodeValuesAreUnknown := by
  refine ⟨fun _ _ => decodeWord_eq_none_iff, fun rdf low => ?count, fun s w hf ho => ?raises⟩
  case count =>
    have hfield : ∀ v, (decodeWord rdf (BitVec.ofNat 7 v ++ low)).isNone =
        decide (BitVec.ofNat 7 v ∉ [0x00#7, 0x03#7, 0x23#7, 0x30#7, 0x33#7]) := fun v => by
      have hop : opcodeBits (BitVec.ofNat 7 v ++ low) = BitVec.ofNat 7 v :=
        BitVec.extractLsb'_append_eq_left
      rw [Bool.eq_iff_iff, Option.isNone_iff_eq_none, decodeWord_eq_none_iff, hop, decide_eq_true_iff]
    simp only [hfield]
    rfl
  case raises =>
    obtain ⟨hr, hb, hw⟩ := hf
    refine ⟨_, step_decodeFault hr (fetch_some.mpr ⟨hb, hw⟩) (decodeWord_eq_none_iff.mpr ho), rfl, ?_⟩
    rw [decodeFault, raise_fault, opfOf_eq_opcodeBits]

/-- Settles O20: value and opcode field are those of the four bytes the word is made of. -/
theorem opcodeLiesInTheHighestByte : Obligations.OpcodeLiesInTheHighestByte := by
  intro rdf b0 b1 b2 b3 rest
  obtain ⟨h0, h1, h2, h3⟩ := byteOf_wordOfBytes b0 b1 b2 b3
  have hop := opfOf_eq_byteOf (wordOfBytes b0 b1 b2 b3)
  have hsum := toNat_eq_sum_byteOf (wordOfBytes b0 b1 b2 b3)
  rw [h3] at hop
  rw [h0, h1, h2, h3] at hsum
  refine ⟨hop, hsum, fun _ => decodeBytes_eq_ok_iff, fun bs hlen i hi => ?_⟩
  rw [decodeBytes_of_short hlen] at hi
  cases hi

/-- Settles O19: five words are the encoder's, and the others are a BREAK and a word off the table. -/
theorem writtenWordsDecode : Obligations.WrittenWordsDecode :=
  ⟨decodeWord_encode (i := .add 1 5) rfl, decodeWord_encode (i := .sub 4 1) rfl,
    decodeWord_encode (i := .load 5 4 1) rfl, decodeWord_encode (i := .store 0 3 12) rfl,
    decodeWord_brk rfl, decodeWord_eq_none_iff.mpr (by decide), decodeWord_encode (i := .add 2 5) rfl⟩

end Sys2Proof.Machine

/-! SUPPORT and proofs for what every step keeps: the configuration, `opc`, the fault record and the one register a
step changes, then the obligations, the invariant of CORE put together from these at the end. -/

namespace Sys2Proof.Machine

/-! ## `opc` and the configuration over a step (R66, R6) -/

section Undecoded

variable {s : State}

theorem undecoded_of_partial_slot (h : s.memSize < s.pc.toNat + 4) :
    ∀ w i, s.Fetches w → decodeWord s.cfg.rdField w ≠ some i := by
  rintro w i ⟨-, hroom, -⟩
  omega

theorem undecoded_of_decodeWord_none {w : Word} (hw : fetch s = some w)
    (hd : decodeWord s.cfg.rdField w = none) :
    ∀ w' i, s.Fetches w' → decodeWord s.cfg.rdField w' ≠ some i := by
  rintro w' i ⟨-, -, rfl⟩
  obtain ⟨-, rfl⟩ := fetch_some.mp hw
  simp [hd]

end Undecoded

/-- Stage 5 raises no fault (R69). -/
theorem advance_run_ne_faulted {u : State} (h : u.run = .running) : (advance u).run ≠ .faulted := by
  rw [advance_run, h]
  split <;> decide

/-- A step without a decoded instruction is a fault of the state as it stood; every other writes `opc`, and
faults, if it does, after that. -/
theorem step_opc_cases {s t : State} (h : step s = .next t) :
    ((∀ w i, s.Fetches w → decodeWord s.cfg.rdField w ≠ some i) ∧ ∃ f, t = raise f s) ∨
    ∃ w i, s.Fetches w ∧ decodeWord s.cfg.rdField w = some i ∧ t.opc = i.opcode ∧
      (t.run = .faulted → ∃ f, t = raise f (latch i s)) := by
  obtain ⟨hr, ⟨hb, rfl⟩ | ⟨w, hw, hd, rfl⟩ | ⟨w, i, hw, hd, he⟩⟩ := step_cases h
  · exact .inl ⟨undecoded_of_partial_slot hb, _, rfl⟩
  · exact .inl ⟨undecoded_of_decodeWord_none hw hd, _, rfl⟩
  · refine .inr ⟨w, i, ⟨hr, fetch_some.mp hw⟩, hd, ?_⟩
    obtain ⟨_, _, -, rfl⟩ | ⟨_, _, _, -, -, rfl⟩ | ⟨-, rfl⟩ | ⟨_, _, -, -, rfl⟩ :=
      endStep_exec_cases hr he
    · exact ⟨rfl, fun ht => absurd ht (advance_run_ne_faulted hr)⟩
    · exact ⟨rfl, fun ht => absurd ht (advance_run_ne_faulted hr)⟩
    · exact ⟨rfl, fun ht => by simp at ht⟩
    · exact ⟨rfl, fun _ => ⟨_, rfl⟩⟩

theorem step_cfg {s t : State} (h : step s = .next t) : t.cfg = s.cfg := by
  obtain ⟨hr, ⟨-, rfl⟩ | ⟨_, -, -, rfl⟩ | ⟨_, _, -, -, he⟩⟩ := step_cases h
  · rfl
  · rfl
  obtain ⟨_, _, -, rfl⟩ | ⟨_, _, _, -, -, rfl⟩ | ⟨-, rfl⟩ | ⟨_, _, -, -, rfl⟩ :=
    endStep_exec_cases hr he
  · rfl
  · rfl
  · rfl
  · rfl

theorem step_memSize {s t : State} (h : step s = .next t) : t.memSize = s.memSize :=
  congrArg (fun c : Config => c.memSize.val) (step_cfg h)

/-! ## The fault record over a step (R88) -/

/-- A faulting step is the fault of the state as it stood, but perhaps for `opc`. -/
theorem step_faulted_frame {s t : State} (h : step s = .next t) (ht : t.run = .faulted) :
    (∃ f, t.fault = some f) ∧ FaultedOnly s t := by
  obtain ⟨-, f, rfl⟩ | ⟨w, i, -, -, -, hfault⟩ := step_opc_cases h
  · exact ⟨⟨f, rfl⟩, faultedOnly_raise f s⟩
  · obtain ⟨f, rfl⟩ := hfault ht
    exact ⟨⟨f, rfl⟩, faultedOnly_raise_latch f i s⟩

/-- A step without a fault leaves the fault record. -/
theorem step_fault_of_not_faulted {s t : State} (h : step s = .next t) (ht : t.run ≠ .faulted) :
    t.fault = s.fault := by
  obtain ⟨hrun, -⟩ | ⟨_, -, hfault, -⟩ := step_pc_cases h
  · exact absurd hrun ht
  · exact hfault

/-! ## The one register a step changes (R15, R67) -/

/-- Only ADD, SUB and LOAD have a destination, and it is the register the rd field names. -/
theorem dest_of_decodeWord {rdf : RdField} {w : Word} {i : Instr} {rd : RegIdx}
    (hd : decodeWord rdf w = some i)
    (hi : (∃ n, i = .add rd n) ∨ (∃ n, i = .sub rd n) ∨ ∃ rs1 imm, i = .load rd rs1 imm) :
    opcodeBits w ∈ [0x33#7, 0x30#7, 0x03#7] ∧ rd = rdOf rdf w := by
  obtain ⟨ho, rfl⟩ | ⟨ho, rfl⟩ | ⟨ho, rfl⟩ | ⟨ho, rfl⟩ | ⟨ho, rfl⟩ := decodeWord_cases hd
  · exact ⟨by simp [ho], by simpa [eq_comm] using hi⟩
  · exact ⟨by simp [ho], by simpa [eq_comm] using hi⟩
  · exact ⟨by simp [ho], by simpa [eq_comm] using hi⟩
  · simp at hi
  · simp at hi

theorem step_reg_changed {s t : State} {j : RegIdx} (h : step s = .next t) (hj : t.reg j ≠ s.reg j) :
    t.run ≠ .faulted ∧ ∃ w, s.Fetches w ∧ opcodeBits w ∈ [0x33#7, 0x30#7, 0x03#7] ∧
      j = rdOf s.cfg.rdField w := by
  obtain ⟨hr, ⟨-, rfl⟩ | ⟨_, -, -, rfl⟩ | ⟨w, i, hw, hd, he⟩⟩ := step_cases h
  · exact absurd rfl hj
  · exact absurd rfl hj
  obtain ⟨rd, v, hi, rfl⟩ | ⟨_, _, _, -, -, rfl⟩ | ⟨-, rfl⟩ | ⟨_, _, -, -, rfl⟩ :=
    endStep_exec_cases hr he
  · obtain ⟨ho, hrd⟩ := dest_of_decodeWord hd hi
    refine ⟨advance_run_ne_faulted hr, w, ⟨hr, fetch_some.mp hw⟩, ho, ?_⟩
    by_contra hne
    simp [hne, hrd] at hj
  · exact absurd rfl hj
  · exact absurd rfl hj
  · exact absurd rfl hj

/-! ## The clauses of the invariant (R16, R19, R22, R26) -/

section Invariant

variable {s t : State}

theorem step_keeps_faultMatchesRun (hs : s.FaultMatchesRun) (h : step s = .next t) :
    t.FaultMatchesRun := by
  obtain ⟨hr, -⟩ := step_cases h
  by_cases ht : t.run = .faulted
  · obtain ⟨⟨f, hf⟩, -⟩ := step_faulted_frame h ht
    simp [State.FaultMatchesRun, ht, hf]
  · have hnone : s.fault = none := by simpa [State.FaultMatchesRun, hr] using hs
    simp [State.FaultMatchesRun, ht, step_fault_of_not_faulted h ht, hnone]

/-- A step that keeps `pc` stops CORE, and one that advances it leaves CORE running only inside memory. -/
theorem step_keeps_pcLegal (hs : s.PcLegal) (h : step s = .next t) : t.PcLegal := by
  obtain ⟨hr, -⟩ := step_cases h
  obtain ⟨haligned, hle, hin⟩ := hs
  have hlt := hin hr
  rw [State.PcLegal, step_memSize h]
  obtain ⟨hrun, hpc⟩ | ⟨w, -, -, ⟨-, hrun, hpc⟩ | ⟨-, hpc, hrun⟩⟩ := step_pc_cases h
  · rw [hpc, hrun]
    exact ⟨haligned, hle, fun hn => by cases hn⟩
  · rw [hpc, hrun]
    exact ⟨haligned, hle, fun hn => by cases hn⟩
  · rw [hpc]
    refine ⟨by omega, by omega, fun hn => ?_⟩
    by_contra hout
    rw [hrun, if_pos (by omega)] at hn
    cases hn

theorem step_keeps_memLegal (hs : s.MemLegal) (h : step s = .next t) : t.MemLegal := by
  obtain ⟨hwf, hin⟩ := hs
  rw [State.MemLegal, step_memSize h]
  obtain hm | ⟨w, -, -, ⟨hlo, hhi⟩, -, hm⟩ := step_mem_cases h
  · rw [hm]
    exact ⟨hwf, hin⟩
  · rw [hm]
    refine ⟨memWrite_wf hwf _ _, fun c hc => ?_⟩
    obtain ⟨-, hc⟩ | hc := mem_memWrite hc
    · omega
    · exact hin c hc

theorem step_keeps_unreachableZero (hs : s.UnreachableZero) (h : step s = .next t) :
    t.UnreachableZero := by
  intro j hj
  rw [step_cfg h] at hj
  by_contra hne
  have hchanged : t.reg j ≠ s.reg j := fun heq => hne (heq.trans (hs j hj))
  obtain ⟨-, w, -, -, rfl⟩ := step_reg_changed h hchanged
  exact absurd (rdOf_lt s.cfg.rdField w) (Nat.not_lt.mpr hj)

end Invariant

/-! ## Steps that differ in `opc` and the fault record (R24) -/

/-- No instruction reads the fault record: with another one it does the same, and leaves that one unless it
writes its own. -/
theorem exec_with_fault (i : Instr) {s : State} (hr : s.run = .running) (f : Option FaultInfo) :
    ∃ u v, exec i s = .next u ∧ exec i { s with fault := f } = .next v ∧
      ((u.run = .faulted ∧ v = u) ∨ (u.run ≠ .faulted ∧ v = { u with fault := f })) := by
  have hnf : s.run ≠ .faulted := by simp [hr]
  cases i with
  | add rd n => exact ⟨_, _, exec_add rd n s, exec_add rd n _, .inr ⟨hnf, rfl⟩⟩
  | sub rd n => exact ⟨_, _, exec_sub rd n s, exec_sub rd n _, .inr ⟨hnf, rfl⟩⟩
  | load rd rs1 imm =>
    by_cases hb : InBounds s (effectiveAddress s rs1 imm)
    · exact ⟨_, _, exec_load_inBounds hb, exec_load_inBounds hb, .inr ⟨hnf, rfl⟩⟩
    · have hi : (∃ rd', Instr.load rd rs1 imm = .load rd' rs1 imm) ∨
        ∃ rs2, Instr.load rd rs1 imm = .store rs1 rs2 imm := .inl ⟨rd, rfl⟩
      exact ⟨_, _, exec_access_outOfBounds hi hb, exec_access_outOfBounds hi hb, .inl ⟨rfl, rfl⟩⟩
  | store rs1 rs2 imm =>
    by_cases hb : InBounds s (effectiveAddress s rs1 imm)
    · exact ⟨_, _, exec_store_inBounds hb, exec_store_inBounds hb, .inr ⟨hnf, rfl⟩⟩
    · have hi : (∃ rd, Instr.store rs1 rs2 imm = .load rd rs1 imm) ∨
        ∃ rs2', Instr.store rs1 rs2 imm = .store rs1 rs2' imm := .inr ⟨rs2, rfl⟩
      exact ⟨_, _, exec_access_outOfBounds hi hb, exec_access_outOfBounds hi hb, .inl ⟨rfl, rfl⟩⟩
  | brk => exact ⟨_, _, exec_brk s, exec_brk _, .inr ⟨by simp, rfl⟩⟩

/-- Stage 5 neither reads the fault record nor faults. -/
theorem endStep_with_fault {u : State} (hu : u.run ≠ .faulted) (f : Option FaultInfo) :
    ∃ t, endStep (.next u) = .next t ∧ endStep (.next { u with fault := f }) = .next { t with fault := f } ∧
      t.run ≠ .faulted := by
  by_cases hr : u.run = .running
  · exact ⟨_, endStep_next_running hr, endStep_next_running (t := { u with fault := f }) hr,
      advance_run_ne_faulted hr⟩
  · exact ⟨_, endStep_next_stopped hr, endStep_next_stopped (t := { u with fault := f }) hr, hu⟩

/-- The step of a decoded instruction from another `opc` and fault record ends in the same state, but for that
record where the step raises no fault. -/
theorem step_with_opc_fault {s : State} {w : Word} {i : Instr} (hf : s.Fetches w)
    (hd : decodeWord s.cfg.rdField w = some i) (k : Opcode) (f : Option FaultInfo) :
    ∃ t u, step s = .next t ∧ step { s with opc := k, fault := f } = .next u ∧
      ((t.run = .faulted ∧ u = t) ∨ (t.run ≠ .faulted ∧ u = { t with fault := f })) := by
  have hf' : State.Fetches { s with opc := k, fault := f } w := hf
  have hlatch : latch i { s with opc := k, fault := f } = { latch i s with fault := f } := rfl
  obtain ⟨u, v, hu, hv, ⟨hrun, rfl⟩ | ⟨hrun, rfl⟩⟩ := exec_with_fault i (s := latch i s) hf.1 f
  · have hstop : v.run ≠ .running := by simp [hrun]
    exact ⟨v, v, step_stops hf hd hu hstop, step_stops hf' hd hv hstop, .inl ⟨hrun, rfl⟩⟩
  · obtain ⟨t, ht, ht', hnf⟩ := endStep_with_fault hrun f
    refine ⟨t, _, ?_, ?_, .inr ⟨hnf, rfl⟩⟩
    · rw [step_of_fetches hf hd, hu, ht]
    · rw [step_of_fetches hf' hd, hlatch, hv, ht']

/-! ## Fetches and untouched memory (R61, R65, R84) -/

theorem memRead_of_zero {m : Memory} {a : Nat} (h : ∀ k, k < 4 → m.read (a + k) = 0) :
    memRead m a = 0 := by
  have h0 : m.read a = 0 := h 0 (by decide)
  rw [memRead, h0, h 1 (by decide), h 2 (by decide), h 3 (by decide)]
  rfl

/-! ## The obligations -/

/-- Settles O37: the four bytes are the zero word, a BREAK. -/
theorem untouchedMemoryHalts : Obligations.UntouchedMemoryHalts := by
  intro s hr hb hzero
  have hf : s.Fetches 0 := ⟨hr, hb, memRead_of_zero hzero⟩
  exact ⟨_, step_brk hf rfl, rfl, rfl, rfl⟩

/-- Settles O40: a legal `pc` is a multiple of 4 below MEM_SIZE, so the slot it cannot fetch is the last. -/
theorem fetchFaultsAtAPartialSlot : Obligations.FetchFaultsAtAPartialSlot := by
  refine fun s => ⟨fun hb => fetch_some.mpr ⟨hb, rfl⟩, fun hr hb => ?fault, fun hinv hr hb => ?legal⟩
  case fault => exact ⟨_, step_fetchFault hr hb, rfl, faultedOnly_raise _ s, rfl⟩
  case legal =>
    obtain ⟨haligned, -, hin⟩ := hinv.pc
    have hlt := hin hr
    omega

/-- Settles O41, from the two kinds of step: with a decoded instruction and without. -/
theorem decodeWritesTheOpcodeRegister : Obligations.DecodeWritesTheOpcodeRegister := by
  intro s w hf
  obtain ⟨hr, hb, hw⟩ := id hf
  refine ⟨fun hd => ?failed, fun i hd => ?decoded⟩
  case failed =>
    exact ⟨_, step_decodeFault hr (fetch_some.mpr ⟨hb, hw⟩) hd, ⟨_, rfl⟩, faultedOnly_raise _ s, rfl⟩
  case decoded =>
    obtain ⟨t, ht⟩ := step_running hr
    obtain ⟨hnone, -⟩ | ⟨w', i', ⟨-, -, hw'⟩, hd', hopc, -⟩ := step_opc_cases ht
    · exact absurd hd (hnone w i hf)
    · rw [← hw', hw, hd] at hd'
      cases hd'
      exact ⟨t, ht, hopc⟩

/-- Settles O46: the frame of a faulting step, and `opc` moves only after a successful decode. -/
theorem faultsArePrecise : Obligations.FaultsArePrecise := by
  intro s t h ht
  obtain ⟨hfault, hframe⟩ := step_faulted_frame h ht
  refine ⟨hfault, hframe, fun hopc => ?_⟩
  obtain ⟨-, f, rfl⟩ | ⟨w, i, hf, hd, ho, -⟩ := step_opc_cases h
  · exact absurd rfl hopc
  · exact ⟨w, i, hf, hd, ho⟩

/-- Settles O47: the destination is what the rd field names. -/
theorem onlyTheDestinationRegisterChanges : Obligations.OnlyTheDestinationRegisterChanges := by
  intro s t j h hj
  obtain ⟨hrun, w, ⟨-, -, rfl⟩, ho, rfl⟩ := step_reg_changed h hj
  exact ⟨hrun, ho, rdOf_val _ _, rdOf_lt _ _⟩

/-- Settles O49: a decoded instruction's variant is never IDLE. -/
theorem opcodeRegisterNeverReturnsToIdle : Obligations.OpcodeRegisterNeverReturnsToIdle := by
  intro s t h hidle
  obtain ⟨hnone, f, rfl⟩ | ⟨_, i, -, -, ho, -⟩ := step_opc_cases h
  · exact ⟨hidle, rfl, hnone⟩
  · rw [ho] at hidle
    cases i <;> cases hidle

/-- Settles O50: the fetch and the decoder read neither register, and stage 4 on reads neither. -/
theorem noInstructionReadsOpcOrFault : Obligations.NoInstructionReadsOpcOrFault := by
  intro s t k f h
  obtain ⟨hr, ⟨hb, rfl⟩ | ⟨w, hw, hd, rfl⟩ | ⟨w, i, hw, hd, -⟩⟩ := step_cases h
  · exact ⟨_, step_fetchFault hr hb, rfl, rfl, rfl, rfl, rfl, fun _ => rfl, fun hn => absurd rfl hn,
      fun ⟨w, i, hf, hd⟩ => absurd hd (undecoded_of_partial_slot hb w i hf)⟩
  · exact ⟨_, step_decodeFault hr hw hd, rfl, rfl, rfl, rfl, rfl, fun _ => rfl, fun hn => absurd rfl hn,
      fun ⟨w', i, hf, hd'⟩ => absurd hd' (undecoded_of_decodeWord_none hw hd w' i hf)⟩
  · obtain ⟨t', u, ht, hu, hcase⟩ := step_with_opc_fault ⟨hr, fetch_some.mp hw⟩ hd k f
    obtain rfl := Host.Outcome.next.inj (h.symm.trans ht)
    refine ⟨u, hu, ?_⟩
    obtain ⟨hrun, rfl⟩ | ⟨hrun, rfl⟩ := hcase
    · exact ⟨rfl, rfl, rfl, rfl, rfl, fun _ => rfl, fun hn => absurd hrun hn, fun _ => rfl⟩
    · exact ⟨rfl, rfl, rfl, rfl, rfl, fun hn => absurd hn hrun,
        fun _ => ⟨rfl, step_fault_of_not_faulted h hrun⟩, fun _ => rfl⟩

/-- Settles O53: clause by clause, from what a step does to the fault record, `pc`, memory and the registers. -/
theorem everyStepKeepsTheInvariant : Obligations.EveryStepKeepsTheInvariant := fun _ _ hinv h =>
  ⟨step_keeps_faultMatchesRun hinv.faults h, step_keeps_pcLegal hinv.pc h, step_keeps_memLegal hinv.mem h,
    step_keeps_unreachableZero hinv.regs h⟩

/-- Settles O55: the invariant and the configuration hold all along the run. -/
theorem unreachableRegistersReadZeroAllRun : Obligations.UnreachableRegistersReadZeroAllRun := by
  intro s t k hinv hrun
  have keeps : ∀ u v : State, u.Inv ∧ u.cfg = s.cfg → step u = .next v → v.Inv ∧ v.cfg = s.cfg :=
    fun u v ⟨hu, hcfg⟩ h => ⟨everyStepKeepsTheInvariant u v hu h, (step_cfg h).trans hcfg⟩
  obtain ⟨ht, hcfg⟩ := core_run_induction keeps k ⟨hinv, rfl⟩ hrun
  obtain ⟨haligned, -⟩ := ht.pc
  obtain ⟨hwf, -⟩ := ht.mem
  exact ⟨haligned, hwf, hcfg ▸ ht.regs⟩

end Sys2Proof.Machine

/-! SUPPORT and proofs for memory by words and the host's moves before a run: the Loader, the check at run entry,
the word placed at `pc`, then the obligations. -/

namespace Sys2Proof.Machine

/-! ## The Loader (R104) -/

theorem loadWords_of_tooLong {words : List Word} {s : State} (h : s.memSize < 4 * words.length) :
    loadWords words s = raise (.outOfBoundsLoad words.length) s := if_pos h

theorem loadWords_of_fits {words : List Word} {s : State} (h : 4 * words.length ≤ s.memSize) :
    loadWords words s = s.setMem (writeWords words 0 s.mem) := if_neg (Nat.not_lt.mpr h)

theorem loadWords_nil (s : State) : loadWords [] s = s := loadWords_of_fits (Nat.zero_le _)

theorem loadWords_cfg (words : List Word) (s : State) : (loadWords words s).cfg = s.cfg := by
  by_cases h : s.memSize < 4 * words.length
  · rw [loadWords_of_tooLong h, raise_cfg]
  · rw [loadWords_of_fits (Nat.not_lt.mp h), setMem_cfg]

/-- Byte `k` of word `i` stands at `4 * i + k`, counted from where the Loader began: the words after it lie
above. -/
theorem read_writeWords_inside (words : List Word) (start : Nat) (m : Memory) {i k : Nat}
    (hi : i < words.length) (hk : k < 4) :
    (writeWords words start m).read (4 * (start + i) + k) = byteOf words[i] k := by
  induction words generalizing start m i with
  | nil => cases hi
  | cons w ws ih =>
    rw [writeWords]
    cases i with
    | zero =>
      rw [read_writeWords_outside ws _ _ _ (by omega), read_memWrite, if_pos (by omega),
        Nat.add_zero, Nat.add_sub_cancel_left, List.getElem_cons_zero]
    | succ i =>
      have hpos : start + (i + 1) = start + 1 + i := by omega
      rw [hpos, ih (start + 1) _ (Nat.lt_of_succ_lt_succ hi), List.getElem_cons_succ]

/-! ## The check at run entry (R70) -/

theorem runEntry_of_outside {s : State} (hr : s.run = .running) (h : s.memSize ≤ s.pc.toNat) :
    runEntry s = halt s := if_pos ⟨hr, h⟩

theorem runEntry_of_ready {s : State} (h : s.run = .running → s.pc.toNat < s.memSize) :
    runEntry s = s := if_neg fun ⟨hr, hout⟩ => Nat.not_lt.mpr hout (h hr)

/-- The check passes the state on, or halts it. -/
theorem runEntry_cases (s : State) :
    ((s.run = .running → s.pc.toNat < s.memSize) ∧ runEntry s = s) ∨
    (s.run = .running ∧ s.memSize ≤ s.pc.toNat ∧ runEntry s = halt s) := by
  by_cases h : s.run = .running → s.pc.toNat < s.memSize
  · exact .inl ⟨h, runEntry_of_ready h⟩
  · obtain ⟨hr, hout⟩ := not_forall.mp h
    exact .inr ⟨hr, Nat.not_lt.mp hout, runEntry_of_outside hr (Nat.not_lt.mp hout)⟩

@[simp] theorem runEntry_cfg (s : State) : (runEntry s).cfg = s.cfg := by
  unfold runEntry
  split <;> rfl

@[simp] theorem runEntry_memSize (s : State) : (runEntry s).memSize = s.memSize := by
  rw [State.memSize, runEntry_cfg, State.memSize]

@[simp] theorem runEntry_pc (s : State) : (runEntry s).pc = s.pc := by
  unfold runEntry
  split <;> rfl

@[simp] theorem runEntry_mem (s : State) : (runEntry s).mem = s.mem := by
  unfold runEntry
  split <;> rfl

@[simp] theorem runEntry_reg (s : State) (j : RegIdx) : (runEntry s).reg j = s.reg j := by
  unfold runEntry
  split <;> rfl

theorem runEntry_keeps_faultMatchesRun {s : State} (hs : s.FaultMatchesRun) :
    (runEntry s).FaultMatchesRun := by
  obtain ⟨-, h⟩ | ⟨hr, -, h⟩ := runEntry_cases s
  · rwa [h]
  · have hnone : s.fault = none := by simpa [State.FaultMatchesRun, hr] using hs
    simp [State.FaultMatchesRun, h, hnone]

/-- What is legal but for a `pc` outside memory meets the invariant after the check: it halts the core whose
`pc` is outside. -/
theorem inv_runEntry {s : State} (hf : s.FaultMatchesRun) (hp : s.pc = 0) (hm : s.MemLegal)
    (hr : s.UnreachableZero) : (runEntry s).Inv := by
  refine ⟨runEntry_keeps_faultMatchesRun hf, ⟨by simp [hp], by simp [hp], fun hn => ?_⟩, ?_, ?_⟩
  · obtain ⟨hready, h⟩ | ⟨-, -, h⟩ := runEntry_cases s
    · rw [h] at hn ⊢
      exact hready hn
    · simp [h] at hn
  · rwa [State.MemLegal, runEntry_mem, runEntry_memSize]
  · simpa only [State.UnreachableZero, runEntry_cfg, runEntry_reg] using hr

/-- Loading the reset state leaves it legal but for its `pc`, whatever the program. -/
theorem inv_runEntry_loadWords (cfg : Config) (words : List Word) :
    (runEntry (loadWords words (State.resetWith cfg))).Inv := by
  have hzero : (State.resetWith cfg).UnreachableZero := fun i _ => resetWith_reg cfg i
  have hempty : (State.resetWith cfg).MemLegal := ⟨⟨.nil, by simp⟩, by simp⟩
  by_cases h : (State.resetWith cfg).memSize < 4 * words.length
  · rw [loadWords_of_tooLong h]
    exact inv_runEntry (by simp [State.FaultMatchesRun]) rfl hempty hzero
  · rw [loadWords_of_fits (Nat.not_lt.mp h)]
    refine inv_runEntry (by simp [State.FaultMatchesRun]) rfl ⟨writeWords_wf words 0 hempty.1, ?_⟩ hzero
    intro c hc
    obtain ⟨-, hc⟩ | hc := mem_writeWords hc
    · rw [setMem_memSize]
      omega
    · cases hc

/-! ## The word placed at `pc` (R65) -/

theorem withFetchWord_of_room {s : State} {nbits w : Nat} (h : s.pc.toNat + 4 ≤ s.memSize) :
    s.withFetchWord nbits w =
      s.setMem (memWrite s.mem s.pc.toNat (BitVec.ofNat 32 (w % 2 ^ nbits))) := if_pos h

theorem decodeWord_of_decodeTableWord {nbits w : Nat} {i : Instr} (h : decodeTableWord nbits w = some i) :
    decodeWord .bits8to11 (BitVec.ofNat 32 (w % 2 ^ nbits)) = some i := by
  rw [← decodeBytes_bytesOf (rest := []), List.append_nil]
  unfold decodeTableWord at h
  split at h
  · rwa [← Option.some.inj h]
  · cases h

/-! ## SUB after ADD (R74, R75) -/

theorem aluSub_aluAdd (a : Word) (n : BitVec 5) : aluSub (aluAdd a n) n = a :=
  BitVec.add_sub_cancel a (n.setWidth 32)

/-- A register written twice, the second time with its first value, leaves the state as it was. -/
theorem setReg_setReg_restore (s : State) (i : RegIdx) (v : Word) :
    (s.setReg i v).setReg i (s.reg i) = s := by
  refine State.ext_reg rfl (fun j => ?_) rfl rfl rfl rfl rfl
  by_cases hj : j = i <;> simp [hj]

/-! ## The obligations -/

/-- Settles O21: reads and writes of a word, byte by byte. -/
theorem wordAccessesAreTheirBytes : Obligations.WordAccessesAreTheirBytes := by
  refine fun m a v => ⟨fun k hk => ?_, fun c hc => ?_, fun k hk => byteOf_memRead m a hk⟩
  · rw [read_memWrite, if_pos (by omega), Nat.add_sub_cancel_left, byteOf]
  · rw [read_memWrite, if_neg (by omega)]

/-- Settles O34: the same four bytes are the same word, and the STORE left its register in them. -/
theorem loadReturnsWhatStoreWrote : Obligations.LoadReturnsWhatStoreWrote := by
  intro s t u rs1 rs2 rd rs1' imm imm' hin hstore hcfg haddr hbytes
  cases hstore.symm.trans (exec_store_inBounds hin)
  have hsize : u.memSize = s.memSize := congrArg (fun c : Config => c.memSize.val) hcfg
  have hin' : InBounds u (effectiveAddress u rs1' imm') := by rwa [haddr, InBounds, hsize]
  refine ⟨_, exec_load_inBounds hin', ?_⟩
  rw [setReg_reg_same, haddr, ← memRead_memWrite_same s.mem (effectiveAddress s rs1 imm).toNat (s.reg rs2)]
  refine memRead_congr fun c hlo hhi => ?_
  obtain ⟨k, rfl⟩ := Nat.exists_eq_add_of_le hlo
  exact hbytes k (by omega)

/-- Settles O2: each byte by the word it lies in, and the words lie below `4 * words.length`. -/
theorem loadWritesEachWordLittleEndian : Obligations.LoadWritesEachWordLittleEndian := by
  intro words s hfits
  rw [loadWords_of_fits hfits]
  refine ⟨fun i hi k hk => ?_, fun a ha => ?_, ⟨rfl, rfl, rfl, rfl, rfl⟩, fun _ => rfl⟩
  · have hread := read_writeWords_inside words 0 s.mem hi hk
    rwa [Nat.zero_add] at hread
  · exact read_writeWords_outside words 0 s.mem a (.inr (by omega))

/-- Settles O3: the load is the fault. -/
theorem loadTooLongFaultsAndWritesNothing : Obligations.LoadTooLongFaultsAndWritesNothing := by
  intro words s h
  rw [loadWords_of_tooLong h]
  exact ⟨⟨_, rfl⟩, faultedOnly_raise _ s, rfl⟩

/-- Settles O4: the first load leaves the phase in which one is taken, and so does a run. -/
theorem loadIsTakenOnceBeforeTheRun : Obligations.LoadIsTakenOnceBeforeTheRun := fun _ _ _ =>
  ⟨_, rfl, rfl, rfl, rfl, rfl⟩

/-- Settles O5: the check halts exactly the running core outside memory, and a halt frames the rest. -/
theorem runEntryHaltsOutsideMemory : Obligations.RunEntryHaltsOutsideMemory := by
  refine fun s => ⟨fun hr hout => ?_, fun hready => runEntry_of_ready fun hr => ?_⟩
  · rw [runEntry_of_outside hr hout]
    exact halt_frame s
  · exact hready.resolve_left (not_not.mpr hr)

/-- Settles O39: the placed word is what the step fetches, and the reference decoder reads it as the step
does. -/
theorem placedWordRunsNext : Obligations.PlacedWordRunsNext := by
  intro s w i hw hr hb hrdf hdec
  have hd := decodeWord_of_decodeTableWord hdec
  rw [Nat.mod_eq_of_lt hw, ← hrdf] at hd
  rw [withFetchWord_of_room hb, Nat.mod_eq_of_lt hw]
  have hf : (s.setMem (memWrite s.mem s.pc.toNat (BitVec.ofNat 32 w))).Fetches (BitVec.ofNat 32 w) :=
    ⟨hr, hb, memRead_memWrite_same _ _ _⟩
  refine ⟨hf, step_of_fetches hf hd, ⟨rfl, rfl, rfl, rfl, rfl⟩, fun _ => rfl, fun a ha => ?_⟩
  rw [setMem_mem, read_memWrite, if_neg (by omega)]

/-- Settles O54: reset is the load of no words, and the reference core enters its run as it was reset. -/
theorem startedCoreMeetsTheInvariant : Obligations.StartedCoreMeetsTheInvariant := by
  have hreset : ∀ cfg, (runEntry (State.resetWith cfg)).Inv := fun cfg => by
    have h := inv_runEntry_loadWords cfg []
    rwa [loadWords_nil] at h
  have hready : runEntry State.reset = State.reset := runEntry_of_ready fun _ => by decide
  refine ⟨?_, fun cfg words => ⟨hreset cfg, inv_runEntry_loadWords cfg words⟩⟩
  rw [← hready]
  exact hreset Config.reference

/-- Settles O26: the same number is taken off the register it was added to. -/
theorem subUndoesAdd : Obligations.SubUndoesAdd := by
  intro rd n s
  have hn := n.isLt
  have hadd := toNat_aluAdd (s.reg rd) n
  have hsub := toNat_aluSub (s.reg rd) n
  refine ⟨_, _, _, exec_add rd n s, exec_sub rd n _, ?undo, exec_sub rd n s, ?up, ?down⟩
  case undo => rw [setReg_reg_same, aluSub_aluAdd, setReg_setReg_restore]
  case up =>
    rw [setReg_reg_same, hadd]
    omega
  case down =>
    rw [setReg_reg_same, hsub]
    omega

end Sys2Proof.Machine

/-! SUPPORT and proofs for runs: that every run stops and within which bound, that `run()` ends where the steps do,
what holds at its end and what the port presents along it, then the obligations. -/

namespace Sys2Proof.Machine

/-! ## Runs on the host's interface -/

theorem core_run_zero (s : State) : Host.Core.run Sys2Proof.core 0 s = .next s := rfl

/-- A run of at least one step that answers a next state ends with a step. -/
theorem core_run_succ_last {k : Nat} {s t : State} (h : Host.Core.run Sys2Proof.core (k + 1) s = .next t) :
    ∃ u, Host.Core.run Sys2Proof.core k s = .next u ∧ step u = .next t := by
  induction k generalizing s with
  | zero =>
    obtain ⟨u, hu, ht⟩ := core_run_succ_cases h
    cases ht
    exact ⟨s, core_run_zero s, hu⟩
  | succ k ih =>
    obtain ⟨v, hv, ht⟩ := core_run_succ_cases h
    obtain ⟨u, hu, hstep⟩ := ih ht
    exact ⟨u, (core_run_succ k hv).trans hu, hstep⟩

theorem core_run_memSize {k : Nat} {s t : State} (h : Host.Core.run Sys2Proof.core k s = .next t) :
    t.memSize = s.memSize :=
  core_run_induction (P := fun u => u.memSize = s.memSize) (fun _ _ hu hstep => (step_memSize hstep).trans hu) k
    rfl h

/-- No step goes on from a stopped core, so two runs from one state that both stop end in one state. -/
theorem core_run_stopped_unique {j k : Nat} {s t u : State}
    (ht : Host.Core.run Sys2Proof.core j s = .next t) (hu : Host.Core.run Sys2Proof.core k s = .next u)
    (htr : t.run ≠ .running) (hur : u.run ≠ .running) : t = u := by
  induction j generalizing s k with
  | zero =>
    cases ht
    cases k with
    | zero => cases hu; rfl
    | succ k =>
      obtain ⟨v, hv, -⟩ := core_run_succ_cases hu
      exact absurd (step_cases hv).1 htr
  | succ j ih =>
    obtain ⟨v, hv, hvt⟩ := core_run_succ_cases ht
    cases k with
    | zero =>
      cases hu
      exact absurd (step_cases hv).1 hur
    | succ k =>
      rw [core_run_succ k hv] at hu
      exact ih hvt hu

/-! ## Every run stops (R73) -/

/-- A step that leaves CORE running is 4 bytes nearer the end of memory and still inside. -/
theorem step_running_advances {s t : State} (h : step s = .next t) (ht : t.run = .running) :
    t.pc.toNat = s.pc.toNat + 4 ∧ t.pc.toNat < t.memSize := by
  obtain ⟨hrun, -⟩ | ⟨w, -, -, ⟨-, hrun, -⟩ | ⟨-, hpc, hrun⟩⟩ := step_pc_cases h
  · simp [hrun] at ht
  · simp [hrun] at ht
  · refine ⟨hpc, ?_⟩
    rw [step_memSize h, hpc]
    by_contra hout
    simp [hrun, Nat.not_lt.mp hout] at ht

/-- From a core that is in memory while it runs, `n` steps are enough for `4 * n` bytes of memory left. -/
theorem exists_run_stopped (n : Nat) {s : State} (hready : s.run = .running → s.pc.toNat < s.memSize)
    (hn : s.memSize - s.pc.toNat ≤ 4 * n) :
    ∃ k t, k ≤ n ∧ Host.Core.run Sys2Proof.core k s = .next t ∧ t.run ≠ .running := by
  induction n generalizing s with
  | zero =>
    refine ⟨0, s, Nat.le_refl 0, core_run_zero s, fun hr => ?_⟩
    have hlt := hready hr
    omega
  | succ n ih =>
    by_cases hr : s.run = .running
    · obtain ⟨u, hu⟩ := step_running hr
      by_cases hur : u.run = .running
      · obtain ⟨hpc, hin⟩ := step_running_advances hu hur
        have hsize := step_memSize hu
        obtain ⟨k, t, hk, ht, hstop⟩ := ih (s := u) (fun _ => hin) (by omega)
        exact ⟨k + 1, t, Nat.succ_le_succ hk, (core_run_succ k hu).trans ht, hstop⟩
      · exact ⟨1, u, by omega, core_run_succ 0 hu, hur⟩
    · exact ⟨0, s, Nat.zero_le _, core_run_zero s, hr⟩

/-- R73, with the entry check. -/
theorem exists_run_of_entry_stopped (s : State) :
    ∃ k t, k ≤ (s.memSize - s.pc.toNat + 3) / 4 ∧
      Host.Core.run Sys2Proof.core k (runEntry s) = .next t ∧ t.run ≠ .running := by
  obtain ⟨hready, h⟩ | ⟨-, -, h⟩ := runEntry_cases s
  · rw [h]
    exact exists_run_stopped _ hready (by omega)
  · rw [h]
    exact ⟨0, halt s, Nat.zero_le _, core_run_zero _, by simp⟩

/-! ## `run()` ends where the steps do (R106) -/

theorem runLoop_of_stopped {s : State} (h : s.run ≠ .running) (n : Nat) : runLoop n s = s := by
  cases n with
  | zero => rfl
  | succ n => exact if_neg h

theorem runLoop_succ {s t : State} (n : Nat) (h : step s = .next t) : runLoop (n + 1) s = runLoop n t := by
  obtain ⟨hr, -⟩ := step_cases h
  rw [runLoop, if_pos hr, h]

/-- A loop with enough fuel ends where the steps stop. -/
theorem runLoop_of_core_run {k n : Nat} {s t : State} (hk : k ≤ n)
    (h : Host.Core.run Sys2Proof.core k s = .next t) (ht : t.run ≠ .running) : runLoop n s = t := by
  induction k generalizing s n with
  | zero =>
    cases h
    exact runLoop_of_stopped ht n
  | succ k ih =>
    obtain ⟨u, hu, hut⟩ := core_run_succ_cases h
    cases n with
    | zero => omega
    | succ n => rw [runLoop_succ n hu, ih (Nat.le_of_succ_le_succ hk) hut]

/-- `run()` ends in the stopped state its steps reach. -/
theorem runToEnd_spec (s : State) :
    ∃ k, Host.Core.run Sys2Proof.core k (runEntry s) = .next (runToEnd s) ∧ (runToEnd s).run ≠ .running := by
  obtain ⟨k, t, hk, ht, hstop⟩ := exists_run_of_entry_stopped s
  have hbound : k ≤ stepBound s := by
    unfold stepBound
    omega
  have hend : runToEnd s = t := runLoop_of_core_run hbound ht hstop
  rw [hend]
  exact ⟨k, ht, hstop⟩

/-- However many steps lead to a stopped state, `run()` ends in it. -/
theorem runToEnd_eq_of_core_run {k : Nat} {s t : State}
    (h : Host.Core.run Sys2Proof.core k (runEntry s) = .next t) (ht : t.run ≠ .running) :
    runToEnd s = t := by
  obtain ⟨j, hj, hstop⟩ := runToEnd_spec s
  exact core_run_stopped_unique hj h hstop ht

theorem runToEnd_of_stopped {s : State} (h : s.run ≠ .running) : runToEnd s = s := by
  have hentry : runEntry s = s := runEntry_of_ready fun hr => absurd hr h
  exact runToEnd_eq_of_core_run (k := 0) (congrArg _ hentry) h

/-- What holds at run entry and is kept by every step holds at the end of `run()`. -/
theorem runToEnd_induction {P : State → Prop} (keeps : ∀ s t, P s → step s = .next t → P t) {s : State}
    (h : P (runEntry s)) : P (runToEnd s) := by
  obtain ⟨k, hk, -⟩ := runToEnd_spec s
  exact core_run_induction keeps k h hk

theorem runToEnd_cfg (s : State) : (runToEnd s).cfg = s.cfg :=
  runToEnd_induction (P := fun t => t.cfg = s.cfg) (fun _ _ ht h => (step_cfg h).trans ht) (runEntry_cfg s)

/-- A stopped core whose fault record is there exactly in FAULTED ended well or with a fault (R93). -/
theorem ended_of_stopped {s : State} (h : s.FaultMatchesRun) (hstop : s.run ≠ .running) :
    s.EndedWell ∨ (s.run = .faulted ∧ ∃ f, s.fault = some f) := by
  cases hr : s.run with
  | running => exact absurd hr hstop
  | halted =>
    have hnone : s.fault = none := by simpa [State.FaultMatchesRun, hr] using h
    exact .inl ⟨hr, hnone⟩
  | faulted => exact .inr ⟨rfl, Option.ne_none_iff_exists'.mp (h.mp hr)⟩

/-! ## The observation port (R108) -/

theorem observe_of_not_faulted {s : State} (h : s.run ≠ .faulted) :
    observe s = .snapshot s.pc s.opc s.regs := by
  unfold observe
  split
  · exact absurd ‹_› h
  · rfl

theorem observe_of_faulted {s : State} {f : FaultInfo} (h : s.run = .faulted) (hf : s.fault = some f) :
    observe s = .faultRecord f := by
  simp [observe, h, hf]

theorem observeRun_succ {s t : State} (k : Nat) (h : step s = .next t) :
    observeRun (k + 1) s = observe t :: observeRun k t := by
  rw [observeRun, h]

theorem observeRun_of_stopped {s : State} (h : s.run ≠ .running) (k : Nat) : observeRun k s = [] := by
  cases k with
  | zero => rfl
  | succ k =>
    cases hr : s.run with
    | running => exact absurd hr h
    | halted => rw [observeRun, step_halted hr]
    | faulted => rw [observeRun, step_faulted hr]

/-- The observation after step `j + 1` is of the state those steps end in. -/
theorem getElem?_observeRun {s u : State} {k j : Nat} (hj : j < k)
    (h : Host.Core.run Sys2Proof.core (j + 1) s = .next u) : (observeRun k s)[j]? = some (observe u) := by
  induction j generalizing s k with
  | zero =>
    obtain ⟨k, rfl⟩ := Nat.exists_eq_add_one_of_ne_zero (Nat.ne_of_gt hj)
    obtain ⟨t, ht, hu⟩ := core_run_succ_cases h
    cases hu
    rw [observeRun_succ k ht, List.getElem?_cons_zero]
  | succ j ih =>
    obtain ⟨k, rfl⟩ := Nat.exists_eq_add_one_of_ne_zero (Nat.ne_of_gt (Nat.zero_lt_of_lt hj))
    obtain ⟨t, ht, hu⟩ := core_run_succ_cases h
    rw [observeRun_succ k ht, List.getElem?_cons_succ, ih (Nat.lt_of_succ_lt_succ hj) hu]

/-! ## A loaded program's run (R112) -/

/-- From the next slot on, and from slot `n` on, every whole slot holds a BREAK. -/
def State.BreaksFrom (n : Nat) (s : State) : Prop :=
  ∀ j, n ≤ j → s.pc.toNat ≤ 4 * j → 4 * j + 4 ≤ s.memSize → opcodeBits (memRead s.mem (4 * j)) = 0

/-- The step turns no slot at or after its `pc` into a word that is not a BREAK (90_conflicts.md C5). -/
def OnlyTurnsIntoBreaks (s t : State) : Prop :=
  ∀ j, s.pc.toNat ≤ 4 * j → 4 * j + 4 ≤ s.memSize → memRead t.mem (4 * j) ≠ memRead s.mem (4 * j) →
    opcodeBits (memRead t.mem (4 * j)) = 0

section Program

variable {n k : Nat} {s t : State}

/-- Past a program loaded into untouched memory every slot is the zero word, a BREAK. -/
theorem breaksFrom_loadWords {cfg : Config} {words : List Word} (h : 4 * words.length ≤ cfg.memSize.val) :
    (runEntry (loadWords words (State.resetWith cfg))).BreaksFrom words.length := by
  intro j hj _ _
  have hzero : memRead (writeWords words 0 []) (4 * j) = 0 := memRead_of_zero fun k _ => by
    rw [read_writeWords_outside words 0 [] _ (.inr (by omega)), read_nil]
  rw [runEntry_mem, loadWords_of_fits (s := State.resetWith cfg) h, setMem_mem, resetWith_mem, hzero]
  rfl

/-- A core entering its run at address 0 is stopped there only by having no memory. -/
theorem memSize_of_runEntry_stopped (hr : s.run = .running) (hp : s.pc = 0)
    (hstop : (runEntry s).run ≠ .running) : s.memSize = 0 := by
  obtain ⟨-, h⟩ | ⟨-, hout, -⟩ := runEntry_cases s
  · rw [h] at hstop
    exact absurd hr hstop
  · simpa [hp] using hout

/-- A step at slot `k` without a fault halts at a BREAK there, memory as it was, or goes on to the next slot,
and then slot `k` is one of the program's. -/
theorem step_at_slot (hbreaks : s.BreaksFrom n) (hpc : s.pc.toNat = 4 * k) (h : step s = .next t)
    (hnf : t.run ≠ .faulted) :
    (opcodeBits (memRead s.mem (4 * k)) = 0 ∧ t.pc.toNat = 4 * k ∧ t.mem = s.mem ∧ t.run = .halted) ∨
    (opcodeBits (memRead s.mem (4 * k)) ≠ 0 ∧ t.pc.toNat = 4 * (k + 1) ∧ k < n ∧
      (t.run ≠ .running → s.memSize ≤ 4 * (k + 1))) := by
  obtain ⟨hrun, -⟩ | ⟨w, hf, -, hcase⟩ := step_pc_cases h
  · exact absurd hrun hnf
  obtain ⟨-, hroom, rfl⟩ := hf
  rw [hpc] at hcase hroom
  obtain ⟨ho, hrun, htpc⟩ | ⟨ho, htpc, hrun⟩ := hcase
  · refine .inl ⟨ho, by rw [htpc, hpc], ?_, hrun⟩
    obtain hm | ⟨w, ⟨-, -, rfl⟩, hstore, -⟩ := step_mem_cases h
    · exact hm
    · rw [hpc, ho] at hstore
      cases hstore
  · refine .inr ⟨ho, by omega, ?_, fun hstop => ?_⟩
    · by_contra hout
      exact ho (hbreaks k (Nat.not_lt.mp hout) (by omega) hroom)
    · by_contra hin
      rw [hpc, if_neg (by omega)] at hrun
      exact hstop hrun

theorem step_keeps_breaksFrom (hbreaks : s.BreaksFrom n) (h : step s = .next t)
    (hpc : s.pc.toNat ≤ t.pc.toNat) (honly : OnlyTurnsIntoBreaks s t) : t.BreaksFrom n := by
  intro j hj hslot hroom
  rw [step_memSize h] at hroom
  by_cases hsame : memRead t.mem (4 * j) = memRead s.mem (4 * j)
  · rw [hsame]
    exact hbreaks j hj (by omega) hroom
  · exact honly j (by omega) hroom hsame

/-- The run has passed the slots below `k`, one step each, and met no BREAK. -/
def PassedSlots (s : State) (k : Nat) : Prop :=
  ∀ j, j < k → ∃ u, Host.Core.run Sys2Proof.core j s = .next u ∧ u.pc.toNat = 4 * j ∧
    opcodeBits (memRead u.mem (4 * j)) ≠ 0

theorem passedSlots_succ {u : State} (h : PassedSlots s k) (hu : Host.Core.run Sys2Proof.core k s = .next u)
    (hpc : u.pc.toNat = 4 * k) (ho : opcodeBits (memRead u.mem (4 * k)) ≠ 0) : PassedSlots s (k + 1) := by
  intro j hj
  obtain hlt | rfl := Nat.lt_succ_iff_lt_or_eq.mp hj
  · exact h j hlt
  · exact ⟨u, hu, hpc, ho⟩

section Run

variable (hstart : s.pc.toNat = 0) (hbreaks : s.BreaksFrom n)
  (hnofault : ∀ k t, Host.Core.run Sys2Proof.core k s = .next t → t.run ≠ .faulted)
  (honly : ∀ k t t', Host.Core.run Sys2Proof.core k s = .next t → step t = .next t' →
    OnlyTurnsIntoBreaks t t')

include hstart hbreaks hnofault honly

/-- While CORE runs it is at the slot of its number of steps, no further than the program's end. -/
theorem running_at_slot (ht : Host.Core.run Sys2Proof.core k s = .next t) (hr : t.run = .running) :
    t.pc.toNat = 4 * k ∧ k ≤ n ∧ t.BreaksFrom n ∧ PassedSlots s k := by
  induction k generalizing t with
  | zero =>
    cases ht
    exact ⟨hstart, Nat.zero_le n, hbreaks, fun j hj => absurd hj (Nat.not_lt_zero j)⟩
  | succ k ih =>
    obtain ⟨u, hu, hstep⟩ := core_run_succ_last ht
    obtain ⟨hpc, -, hub, hpassed⟩ := ih hu (step_cases hstep).1
    obtain ⟨-, -, -, hhalt⟩ | ⟨ho, htpc, hk, -⟩ := step_at_slot hub hpc hstep (hnofault _ t ht)
    · simp [hhalt] at hr
    · exact ⟨htpc, hk, step_keeps_breaksFrom hub hstep (by omega) (honly k u t hu hstep),
        passedSlots_succ hpassed hu hpc ho⟩

/-- Where CORE stops: at the first BREAK of the program, after it, or at the end of a memory it fills. -/
theorem stopped_at_slot (hfits : 4 * n ≤ s.memSize) (hempty : s.run ≠ .running → s.memSize = 0)
    (ht : Host.Core.run Sys2Proof.core k s = .next t) (hr : t.run ≠ .running) :
    ∃ m, t.pc.toNat = 4 * m ∧ m ≤ n ∧ (m < n → opcodeBits (memRead t.mem (4 * m)) = 0) ∧
      (m = n → 4 * m = s.memSize ∨ opcodeBits (memRead t.mem (4 * m)) = 0) ∧ PassedSlots s m := by
  cases k with
  | zero =>
    cases ht
    have hsize := hempty hr
    exact ⟨0, hstart, Nat.zero_le n, fun hm => by omega, fun _ => .inl hsize.symm,
      fun j hj => absurd hj (Nat.not_lt_zero j)⟩
  | succ k =>
    obtain ⟨u, hu, hstep⟩ := core_run_succ_last ht
    obtain ⟨hpc, hk, hub, hpassed⟩ :=
      running_at_slot hstart hbreaks hnofault honly hu (step_cases hstep).1
    obtain ⟨ho, htpc, hmem, -⟩ | ⟨ho, htpc, hlt, hout⟩ := step_at_slot hub hpc hstep (hnofault _ t ht)
    · rw [← hmem] at ho
      exact ⟨k, htpc, hk, fun _ => ho, fun _ => .inr ho, hpassed⟩
    · have hend := hout hr
      rw [core_run_memSize hu] at hend
      exact ⟨k + 1, htpc, hlt, fun hm => by omega, fun hm => .inl (by omega),
        passedSlots_succ hpassed hu hpc ho⟩

end Run

end Program

/-! ## The obligations -/

/-- Settles O6: each step that leaves CORE running takes 4 bytes off the memory left. -/
theorem everyRunStopsWithinTheBound : Obligations.EveryRunStopsWithinTheBound :=
  exists_run_of_entry_stopped

/-- Settles O7: the run from the state after a step ends where the run from before it does. -/
theorem runRepeatsTheStepUntilItStops : Obligations.RunRepeatsTheStepUntilItStops := by
  intro s
  obtain ⟨k, hk, hstop⟩ := runToEnd_spec s
  refine ⟨hstop, fun hr hin => ?inside, fun hr hout => ?outside⟩
  case inside =>
    obtain ⟨t, ht⟩ := step_running hr
    have hready : runEntry t = t := runEntry_of_ready fun htr => (step_running_advances ht htr).2
    rw [runEntry_of_ready fun _ => hin] at hk
    cases k with
    | zero =>
      have hend : s = runToEnd s := Host.Outcome.next.inj hk
      rw [← hend] at hstop
      exact absurd hr hstop
    | succ k =>
      rw [core_run_succ k ht, ← hready] at hk
      exact ⟨t, ht, (runToEnd_eq_of_core_run hk hstop).symm⟩
  case outside =>
    have hentry := runEntry_of_outside hr hout
    exact runToEnd_eq_of_core_run (k := 0) (congrArg _ hentry) (by simp)

/-- Settles O8: the end of a run is stopped, and a stopped core is its own end. -/
theorem runOfAStoppedCoreChangesNothing : Obligations.RunOfAStoppedCoreChangesNothing := by
  refine ⟨fun s => runToEnd_of_stopped, fun s => runToEnd_of_stopped ?_⟩
  obtain ⟨-, -, hstop⟩ := runToEnd_spec s
  exact hstop

/-- Settles O9: that the fault record is there exactly in FAULTED holds all along the run. -/
theorem runEndsHaltedOrWithAFault : Obligations.RunEndsHaltedOrWithAFault := by
  intro s hs
  obtain ⟨-, -, hstop⟩ := runToEnd_spec s
  have hend : (runToEnd s).FaultMatchesRun :=
    runToEnd_induction (fun _ _ => step_keeps_faultMatchesRun) (runEntry_keeps_faultMatchesRun hs)
  exact ended_of_stopped hend hstop

/-- Settles O10: the run's last step is a BREAK's at the slot it stops at, or one that leaves memory, and then
the program fills memory. -/
theorem runEndsAtTheFirstBreakOrTheEnd : Obligations.RunEndsAtTheFirstBreakOrTheEnd := by
  intro cfg words hfits s hnofault honly
  have hload := loadWords_of_fits (words := words) (s := State.resetWith cfg) hfits
  have hpc : s.pc.toNat = 0 := by simp [s, hload]
  have hsize : s.memSize = cfg.memSize.val := by simp [s, hload]
  have hempty : s.run ≠ .running → s.memSize = 0 := fun hr => by
    rw [runEntry_memSize]
    exact memSize_of_runEntry_stopped (by simp [hload]) (by simp [hload]) hr
  obtain ⟨k, hk, hstop⟩ := runToEnd_spec (loadWords words (State.resetWith cfg))
  have hfaults := core_run_induction (fun _ _ => step_keeps_faultMatchesRun) k
    (inv_runEntry_loadWords cfg words).faults hk
  have hwell := (ended_of_stopped hfaults hstop).resolve_right fun ⟨hfault, _⟩ => hnofault k _ hk hfault
  obtain ⟨m, htpc, hm, hbefore, hend, hpassed⟩ := stopped_at_slot hpc (breaksFrom_loadWords hfits) hnofault
    honly (hsize ▸ hfits) hempty hk hstop
  exact ⟨k, m, _, hk, hwell, htpc, hm, hbefore, hsize ▸ hend, hpassed⟩

/-- Settles O11: a faulting step has written the record the port presents, and each step adds one observation. -/
theorem portPresentsThePostStepState : Obligations.PortPresentsThePostStepState := by
  refine ⟨fun s t h => ⟨observe_of_not_faulted, fun ht => ?_, fun hr => if_pos hr, fun hr => if_neg hr,
    fun k => observeRun_succ k h⟩, fun _ k hr => observeRun_of_stopped hr k, fun _ _ _ _ => getElem?_observeRun⟩
  obtain ⟨⟨f, hf⟩, -⟩ := step_faulted_frame h ht
  exact ⟨f, hf, observe_of_faulted ht hf⟩

/-- Settles O51: steps keep it, so runs do, and the Loader writes memory or the fault alone. -/
theorem configurationNeverChanges : Obligations.ConfigurationNeverChanges :=
  ⟨fun _ _ => step_cfg, runToEnd_cfg, loadWords_cfg⟩

end Sys2Proof.Machine
